-- ==== Sys2Proof/Word.lean ====
section
/-! DEFINITION. The machine's word, and the two classes of decoded operand words.

A word is 16 bits (R5 WORD_BITS, R60); every register, memory cell and stack entry stores one. Every value is
unsigned (R6): the model reads a word as a number by `toNat` only. -/

namespace Sys2Proof

/-- A 16-bit word of memory, register or stack storage (R5 WORD_BITS). -/
abbrev Word := BitVec 16

/-- A register's index, 0 to 7, naming r0 to r7 (R20). -/
abbrev RegIndex := Fin 8

/-- A source operand, as read-resolution classifies its word (R64, R65). -/
inductive Src where
  /-- a literal, 0 to 32767, used as it stands -/
  | lit (v : Word)
  /-- a register reference: the register's contents -/
  | reg (r : RegIndex)
  /-- an operand word above 32775; resolving it raises OperandOutOfRange (R65) -/
  | outOfRange (w : Word)
  deriving DecidableEq, Repr

/-- A destination operand, as write-resolution classifies its word (R64, R66). -/
inductive Dst where
  /-- the register the result goes to; it is never dereferenced -/
  | reg (r : RegIndex)
  /-- an operand word outside 32768 to 32775, a literal among them; resolving it raises InvalidRegisterIndex (R66) -/
  | notRegister (w : Word)
  deriving DecidableEq, Repr

end Sys2Proof
end

