-- ==== Sys2Proof/Config.lean ====
section
/-! DEFINITION. The core's fixed parameters, each at the value the spec's table of R5 gives it.

The spec leaves two parameters OPEN (R5): `stack_capacity` and `input_source`. Both are fields of the machine's
state (assumption log 3 and 7), so that every statement about all states holds for every value of them. The spec leaves
no value free, so nothing here is opaque. -/

namespace Sys2Proof.Config

/-- `MEM_WORDS`: the Word Store has cells 0 to 32767 (R5, R40). -/
abbrev memWords : Nat := 32768

/-- `VALUE_MOD`: the modulus of `add` and `mult` (R5, R140). -/
abbrev valueMod : Nat := 32768

/-- `VALUE_MAX`: the largest literal and the largest register value (R5). -/
abbrev valueMax : Nat := 32767

/-- `REG_BASE`: the operand word 32768 + i names register i (R5, R64). -/
abbrev regBase : Nat := 32768

/-- `REG_LAST`: the last operand word that names a register (R5, R64). -/
abbrev regLast : Nat := 32775

/-- The length in words of the longest instruction, format L4 (R61). -/
abbrev maxLength : Nat := 4

/-- The default of the OPEN parameter `stack_capacity`: unbounded, the source's reading (R5). -/
abbrev defaultStackCapacity : Option Nat := none

end Sys2Proof.Config
end

