-- ==== Sys2Proof/Syntax.lean ====
section
/-! DEFINITION. The instructions: one constructor per row of the opcode table (R63), operands in the table's order. -/

namespace Sys2Proof

/-- An instruction with its decoded operands. Operand roles (destination or source) are those of R63. -/
inductive Instr where
  /-- opcode 0, R100: end the run -/
  | halt
  /-- opcode 1, R101: copy a value into a register -/
  | set (a : Dst) (b : Src)
  /-- opcode 2, R102: push a value -/
  | push (a : Src)
  /-- opcode 3, R103: pop the top into a register -/
  | pop (a : Dst)
  /-- opcode 4, R120: equality test -/
  | eq (a : Dst) (b c : Src)
  /-- opcode 5, R121: unsigned greater-than -/
  | gt (a : Dst) (b c : Src)
  /-- opcode 6, R122: jump -/
  | jmp (a : Src)
  /-- opcode 7, R123: jump if not zero; `a` is the condition, `b` the target -/
  | jt (a b : Src)
  /-- opcode 8, R124: jump if zero; `a` is the condition, `b` the target -/
  | jf (a b : Src)
  /-- opcode 9, R141: addition modulo 32768 -/
  | add (a : Dst) (b c : Src)
  /-- opcode 10, R142: multiplication modulo 32768 -/
  | mult (a : Dst) (b c : Src)
  /-- opcode 11, R143: unsigned remainder, `b` by `c` -/
  | mod (a : Dst) (b c : Src)
  /-- opcode 12, R144: bitwise and -/
  | and (a : Dst) (b c : Src)
  /-- opcode 13, R145: bitwise or -/
  | or (a : Dst) (b c : Src)
  /-- opcode 14, R146: 15-bit complement -/
  | not (a : Dst) (b : Src)
  /-- opcode 15, R160: read the memory word at address `b` -/
  | rmem (a : Dst) (b : Src)
  /-- opcode 16, R161: write the value `b` at address `a` -/
  | wmem (a b : Src)
  /-- opcode 17, R162: push the return address and jump -/
  | call (a : Src)
  /-- opcode 18, R163: pop an address and jump to it -/
  | ret
  /-- opcode 19, R180: emit one character code -/
  | out (a : Src)
  /-- opcode 20, R181: read one character code (the table's `in`, a reserved word of Lean) -/
  | in_ (a : Dst)
  /-- opcode 21, R182: no operation -/
  | noop
  deriving DecidableEq, Repr

end Sys2Proof
end

