-- ==== Sys2Proof/WellFormed.lean ====
section
/-! DEFINITION. Which instruction terms stand for words: every operand is in the class its own word has (R64).

An operand word that is invalid for its role is part of a well-formed instruction: the instruction decodes, and
executing it raises the fault R68 names. -/

namespace Sys2Proof

/-- A literal is at most 32767 and an out-of-range word is above 32775 (R64). -/
def Src.wf : Src → Bool
  | .lit v => decide (v.toNat ≤ Config.valueMax)
  | .reg _ => true
  | .outOfRange w => decide (Config.regLast < w.toNat)

/-- A word that names no register lies outside 32768 to 32775 (R66). -/
def Dst.wf : Dst → Bool
  | .reg _ => true
  | .notRegister w => decide (w.toNat < Config.regBase ∨ Config.regLast < w.toNat)

/-- The destination operand of an instruction, R20 and R63. -/
def Instr.destination : Instr → Option Dst
  | .halt => none
  | .set a _ => some a
  | .push _ => none
  | .pop a => some a
  | .eq a _ _ => some a
  | .gt a _ _ => some a
  | .jmp _ => none
  | .jt _ _ => none
  | .jf _ _ => none
  | .add a _ _ => some a
  | .mult a _ _ => some a
  | .mod a _ _ => some a
  | .and a _ _ => some a
  | .or a _ _ => some a
  | .not a _ => some a
  | .rmem a _ => some a
  | .wmem _ _ => none
  | .call _ => none
  | .ret => none
  | .out _ => none
  | .in_ a => some a
  | .noop => none

/-- The source operands of an instruction, R63. -/
def Instr.sources : Instr → List Src
  | .halt => []
  | .set _ b => [b]
  | .push a => [a]
  | .pop _ => []
  | .eq _ b c => [b, c]
  | .gt _ b c => [b, c]
  | .jmp a => [a]
  | .jt a b => [a, b]
  | .jf a b => [a, b]
  | .add _ b c => [b, c]
  | .mult _ b c => [b, c]
  | .mod _ b c => [b, c]
  | .and _ b c => [b, c]
  | .or _ b c => [b, c]
  | .not _ b => [b]
  | .rmem _ b => [b]
  | .wmem a b => [a, b]
  | .call a => [a]
  | .ret => []
  | .out a => [a]
  | .in_ _ => []
  | .noop => []

/-- Every operand is in the class of its own word. -/
def Instr.wellFormed (i : Instr) : Bool := i.destination.all Dst.wf && i.sources.all Src.wf

end Sys2Proof
end

