-- ==== Sys2Proof/Decode.lean ====
section
/-! DEFINITION. The opcode map, the decoder and the encoder.

The numeric opcode values stand in ONE table, `Op.number`, which the decoder searches and the encoder reads, because the
spec asks that the numbering can be replaced in one place (the warning at the head of 30_encoding.md; assumption
log 10). -/

namespace Sys2Proof

/-- The operations of the opcode map, R63. -/
inductive Op where
  | halt | set | push | pop | eq | gt | jmp | jt | jf | add | mult | mod | and | or | not
  | rmem | wmem | call | ret | out | in_ | noop
  deriving DecidableEq, Repr

/-- The opcode values, R63. PRESUMED by the spec itself from general knowledge (D1, assumption log 10). -/
def Op.number : Op → Nat
  | .halt => 0
  | .set => 1
  | .push => 2
  | .pop => 3
  | .eq => 4
  | .gt => 5
  | .jmp => 6
  | .jt => 7
  | .jf => 8
  | .add => 9
  | .mult => 10
  | .mod => 11
  | .and => 12
  | .or => 13
  | .not => 14
  | .rmem => 15
  | .wmem => 16
  | .call => 17
  | .ret => 18
  | .out => 19
  | .in_ => 20
  | .noop => 21

/-- Every operation once, in the order of R63. -/
def Op.all : List Op :=
  [.halt, .set, .push, .pop, .eq, .gt, .jmp, .jt, .jf, .add, .mult, .mod, .and, .or, .not,
   .rmem, .wmem, .call, .ret, .out, .in_, .noop]

/-- The opcode word of an operation. -/
def Op.word (op : Op) : Word := BitVec.ofNat 16 op.number

/-- The operation a raw opcode word selects, if any: the whole 16-bit word is compared, never operand-resolved (R62, R68). -/
def Op.ofWord (w : Word) : Option Op := Op.all.find? (fun op => op.word == w)

/-- The class of a source operand's word, R64. No masking, extension or scaling (C3). -/
def Src.ofWord (w : Word) : Src :=
  if w.toNat ≤ Config.valueMax then .lit w
  else if w.toNat ≤ Config.regLast then .reg (Fin.ofNat 8 (w.toNat - Config.regBase))
  else .outOfRange w

/-- The class of a destination operand's word, R66: only 32768 to 32775 name a register. -/
def Dst.ofWord (w : Word) : Dst :=
  if Config.regBase ≤ w.toNat ∧ w.toNat ≤ Config.regLast then
    .reg (Fin.ofNat 8 (w.toNat - Config.regBase))
  else .notRegister w

/-- The word that names register r: 32768 + r (R22). -/
def regWord (r : RegIndex) : Word := BitVec.ofNat 16 (Config.regBase + r.val)

/-- The operand word of a source operand. -/
def Src.word : Src → Word
  | .lit v => v
  | .reg r => regWord r
  | .outOfRange w => w

/-- The operand word of a destination operand. -/
def Dst.word : Dst → Word
  | .reg r => regWord r
  | .notRegister w => w

/-- Why a list of words is not an instruction. -/
inductive DecodeError where
  /-- the opcode word selects no instruction, 22 to 65535 (R68) -/
  | invalidOpcode (w : Word)
  /-- the list ends before word `k` of the instruction; word 0 is the opcode word (R60) -/
  | missingWord (k : Nat)
  deriving DecidableEq, Repr

/-- Format L1 (R61): no operand word. -/
def operands0 (i : Instr) (rest : List Word) : Except DecodeError (Instr × List Word) :=
  .ok (i, rest)

/-- Format L2 (R61): one operand word. -/
def operands1 (k : Word → Instr) : List Word → Except DecodeError (Instr × List Word)
  | a :: rest => .ok (k a, rest)
  | [] => .error (.missingWord 1)

/-- Format L3 (R61): two operand words, A then B. -/
def operands2 (k : Word → Word → Instr) : List Word → Except DecodeError (Instr × List Word)
  | a :: b :: rest => .ok (k a b, rest)
  | [_] => .error (.missingWord 2)
  | [] => .error (.missingWord 1)

/-- Format L4 (R61): three operand words, A, B, C. -/
def operands3 (k : Word → Word → Word → Instr) : List Word → Except DecodeError (Instr × List Word)
  | a :: b :: c :: rest => .ok (k a b c, rest)
  | [_, _] => .error (.missingWord 3)
  | [_] => .error (.missingWord 2)
  | [] => .error (.missingWord 1)

/-- The operand words of each operation, each decoded in its role, R63. -/
def Op.operands : Op → List Word → Except DecodeError (Instr × List Word)
  | .halt => operands0 .halt
  | .set => operands2 fun a b => .set (Dst.ofWord a) (Src.ofWord b)
  | .push => operands1 fun a => .push (Src.ofWord a)
  | .pop => operands1 fun a => .pop (Dst.ofWord a)
  | .eq => operands3 fun a b c => .eq (Dst.ofWord a) (Src.ofWord b) (Src.ofWord c)
  | .gt => operands3 fun a b c => .gt (Dst.ofWord a) (Src.ofWord b) (Src.ofWord c)
  | .jmp => operands1 fun a => .jmp (Src.ofWord a)
  | .jt => operands2 fun a b => .jt (Src.ofWord a) (Src.ofWord b)
  | .jf => operands2 fun a b => .jf (Src.ofWord a) (Src.ofWord b)
  | .add => operands3 fun a b c => .add (Dst.ofWord a) (Src.ofWord b) (Src.ofWord c)
  | .mult => operands3 fun a b c => .mult (Dst.ofWord a) (Src.ofWord b) (Src.ofWord c)
  | .mod => operands3 fun a b c => .mod (Dst.ofWord a) (Src.ofWord b) (Src.ofWord c)
  | .and => operands3 fun a b c => .and (Dst.ofWord a) (Src.ofWord b) (Src.ofWord c)
  | .or => operands3 fun a b c => .or (Dst.ofWord a) (Src.ofWord b) (Src.ofWord c)
  | .not => operands2 fun a b => .not (Dst.ofWord a) (Src.ofWord b)
  | .rmem => operands2 fun a b => .rmem (Dst.ofWord a) (Src.ofWord b)
  | .wmem => operands2 fun a b => .wmem (Src.ofWord a) (Src.ofWord b)
  | .call => operands1 fun a => .call (Src.ofWord a)
  | .ret => operands0 .ret
  | .out => operands1 fun a => .out (Src.ofWord a)
  | .in_ => operands1 fun a => .in_ (Dst.ofWord a)
  | .noop => operands0 .noop

/-- The instruction at the head of a list of words, with the words after it (R60, R69). An invalid opcode is found before any
operand word is looked at (R82), and a list too short is refused at its first missing word (R83). -/
def decode : List Word → Except DecodeError (Instr × List Word)
  | [] => .error (.missingWord 0)
  | w :: rest =>
    match Op.ofWord w with
    | none => .error (.invalidOpcode w)
    | some op => op.operands rest

/-- The operation of an instruction. -/
def Instr.op : Instr → Op
  | .halt => .halt
  | .set _ _ => .set
  | .push _ => .push
  | .pop _ => .pop
  | .eq _ _ _ => .eq
  | .gt _ _ _ => .gt
  | .jmp _ => .jmp
  | .jt _ _ => .jt
  | .jf _ _ => .jf
  | .add _ _ _ => .add
  | .mult _ _ _ => .mult
  | .mod _ _ _ => .mod
  | .and _ _ _ => .and
  | .or _ _ _ => .or
  | .not _ _ => .not
  | .rmem _ _ => .rmem
  | .wmem _ _ => .wmem
  | .call _ => .call
  | .ret => .ret
  | .out _ => .out
  | .in_ _ => .in_
  | .noop => .noop

/-- The operand words of an instruction, A first (R61). -/
def Instr.operandWords : Instr → List Word
  | .halt => []
  | .set a b => [a.word, b.word]
  | .push a => [a.word]
  | .pop a => [a.word]
  | .eq a b c => [a.word, b.word, c.word]
  | .gt a b c => [a.word, b.word, c.word]
  | .jmp a => [a.word]
  | .jt a b => [a.word, b.word]
  | .jf a b => [a.word, b.word]
  | .add a b c => [a.word, b.word, c.word]
  | .mult a b c => [a.word, b.word, c.word]
  | .mod a b c => [a.word, b.word, c.word]
  | .and a b c => [a.word, b.word, c.word]
  | .or a b c => [a.word, b.word, c.word]
  | .not a b => [a.word, b.word]
  | .rmem a b => [a.word, b.word]
  | .wmem a b => [a.word, b.word]
  | .call a => [a.word]
  | .ret => []
  | .out a => [a.word]
  | .in_ a => [a.word]
  | .noop => []

/-- The words of an instruction: its opcode word, then its operand words (R60). -/
def encode (i : Instr) : List Word := i.op.word :: i.operandWords

/-- The number of words a format of this arity has: the opcode word and the operand words (R69). -/
def Instr.length (i : Instr) : Nat := 1 + i.operandWords.length

/-- The words that a number stands for when its bits are numbered as the opcode table numbers them: word `k` of the instruction
is bits 16k+15 to 16k, and every bit from `nbits` up is zero. As many words as the longest instruction has. -/
def tableWords (nbits w : Nat) : List Word :=
  (List.range Config.maxLength).map fun k => BitVec.ofNat 16 (w % 2 ^ nbits / 2 ^ (16 * k))

/-- What the decoder reads from an instruction whose bits are `w`, numbered as the opcode table numbers them. -/
def decodeTableWord (nbits w : Nat) : Option Instr :=
  match decode (tableWords nbits w) with
  | .ok (i, _) => some i
  | .error _ => none

end Sys2Proof
end

