-- ==== Sys2Proof/Machine/State.lean ====
section
/-! DEFINITION. The machine's state, its faults and refusals, and its state after reset.

The core's own state is the register file, the program counter, the operand stack, the Word Store and the run status with
its fault record (10_state.md, R20 to R31). The I/O channel's state (output log, line buffer, input source) belongs to the
host's side (R32), but `out` and `in` act on it, so it stands here too. The core has no flags (R29), no control registers
(R30), no modes and no interrupt state (R208, R210). -/

namespace Sys2Proof.Machine

/-- The kinds of fault the spec gives the core, R201. -/
inductive FaultKind where
  | invalidOpcode
  | operandOutOfRange
  | invalidRegisterIndex
  | stackUnderflow
  | arithmeticError
  | addressingError
  | valueOutOfRange
  | inputEndOfFile
  | stackOverflow
  deriving DecidableEq, Repr

/-- What a faulting instruction records, R31. -/
structure FaultRecord where
  /-- which error (R201) -/
  kind : FaultKind
  /-- the instruction address: the address of the faulting instruction's opcode word -/
  addr : Word
  /-- the offending word, address or value (R202) -/
  info : Nat
  deriving DecidableEq, Repr

/-- The run status, R28. Both ends are terminal. -/
inductive RunStatus where
  | running
  | halted
  | faulted (r : FaultRecord)
  deriving DecidableEq, Repr

/-- The eight general-purpose registers, R20: each stores a 16-bit word, none is special. -/
structure RegBank where
  r0 : Word
  r1 : Word
  r2 : Word
  r3 : Word
  r4 : Word
  r5 : Word
  r6 : Word
  r7 : Word
  deriving DecidableEq, Repr

/-- One allocated cell of the Word Store: its address and its 16-bit word (R40, R45: the word is the smallest addressable
unit). -/
abbrev Cell := Nat × Word

/-- The Word Store (R27, R40): the allocated cells, addresses strictly rising. An address that is not listed is an
unallocated cell (R41). -/
abbrev Memory := List Cell

/-- What the host's input source delivers (R183, `input_source` of R5): a whole line of codes, as `read_line` returns it, or the end
of input. -/
inductive InputItem where
  | line (codes : List Nat)
  | endOfInput
  deriving DecidableEq, Repr

/-- The machine's whole state. -/
structure State where
  /-- r0 to r7 (R20) -/
  regs : RegBank
  /-- the index into the Word Store of the next word to fetch, 16 bits (R23) -/
  pc : Word
  /-- the operand stack, top first (R25) -/
  stack : List Word
  /-- the Word Store (R27) -/
  mem : Memory
  /-- the run status with its fault record (R28, R31) -/
  status : RunStatus
  /-- the OPEN parameter `stack_capacity` (R5, R26): `none` is unbounded; no step writes it (assumption log 3) -/
  stackCapacity : Option Nat
  /-- the output log of the I/O channel, first code first (R32, R183) -/
  output : List Word
  /-- the I/O channel's line buffer: the codes of the current line not yet consumed (R32) -/
  lineBuffer : List Nat
  /-- what the input source has delivered and the channel has not read yet, first item first (R32, R183) -/
  pendingInput : List InputItem
  deriving DecidableEq, Repr

/-- Why `step` takes no step. The spec's own faults are not among these: raising one is a next state whose run status is
`faulted` (R203). -/
inductive Fault where
  /-- raised by `step` alone, when the run status is Halted: no step is enabled (R28, R80, R100). Safe: the model stops where the
  core stops. -/
  | runHalted
  /-- raised by `step` alone, when the run status is Faulted: no step is enabled, and the host receives the record (R28, R80,
  R203). Safe: the model stops where the core stops. -/
  | runFaulted (r : FaultRecord)
  deriving DecidableEq, Repr

/-- Why the model has no meaning for an instruction. -/
inductive Refusal where
  /-- kept for an instruction without a meaning; no arm of `exec` raises it, since every instruction has its meaning. Safe. -/
  | notModelled (mnemonic : String)
  deriving DecidableEq, Repr

/-- What executing an instruction, or taking a step, answers. -/
abbrev Result := Host.Outcome State Fault Refusal

/-- The machine right after construction, R230 with the empty image (n = 0): every value but the last three fields' is the one
R230 states; `stackCapacity` is the spec's default (R5), and the input source has delivered nothing yet (assumption log 7). -/
def State.reset : State where
  regs := ⟨0, 0, 0, 0, 0, 0, 0, 0⟩
  pc := 0
  stack := []
  mem := []
  status := .running
  stackCapacity := Config.defaultStackCapacity
  output := []
  lineBuffer := []
  pendingInput := []

end Sys2Proof.Machine
end

