-- ==== Sys2Proof/Machine/Ops.lean ====
section
/-! DEFINITION. The named operations over registers, memory, stack, program counter and I/O channel, and fault entry. -/

namespace Sys2Proof.Machine

/-! ### The register bank -/

/-- `x[i]` (R7, R20). -/
def RegBank.get (b : RegBank) (r : RegIndex) : Word :=
  match r with
  | 0 => b.r0
  | 1 => b.r1
  | 2 => b.r2
  | 3 => b.r3
  | 4 => b.r4
  | 5 => b.r5
  | 6 => b.r6
  | 7 => b.r7

/-- `x[i] <- v` (R7, R20). -/
def RegBank.set (b : RegBank) (r : RegIndex) (v : Word) : RegBank :=
  match r with
  | 0 => { b with r0 := v }
  | 1 => { b with r1 := v }
  | 2 => { b with r2 := v }
  | 3 => { b with r3 := v }
  | 4 => { b with r4 := v }
  | 5 => { b with r5 := v }
  | 6 => { b with r6 := v }
  | 7 => { b with r7 := v }

/-- Reads register r. -/
def State.reg (s : State) (r : RegIndex) : Word := s.regs.get r

/-- Writes register r. -/
def State.setReg (s : State) (r : RegIndex) (v : Word) : State := { s with regs := s.regs.set r v }

/-! ### Faults -/

/-- A `raise K(info)` (R7): which kind, and what it records (R202). -/
structure Trap where
  kind : FaultKind
  info : Nat
  deriving DecidableEq, Repr

/-- The cause code of a fault kind, R201. -/
def FaultKind.code : FaultKind → Nat
  | .invalidOpcode => 1
  | .operandOutOfRange => 2
  | .invalidRegisterIndex => 3
  | .stackUnderflow => 4
  | .arithmeticError => 5
  | .addressingError => 6
  | .valueOutOfRange => 7
  | .inputEndOfFile => 8
  | .stackOverflow => 9

/-- Fault entry, R203, of the instruction at the address the pc holds: the status records the fault, and the pc is the
instruction's address. Nothing else is saved or changed (R204). There is no return from a fault (R207). -/
def State.raise (s : State) (t : Trap) : State :=
  { s with status := .faulted ⟨t.kind, s.pc, t.info⟩, pc := s.pc }

/-- Ends an instruction (R85, R89): with the state its rule gives, or with fault entry in the state it began in, so that every
write of the faulting instruction is discarded. -/
def State.commit (s : State) (r : Except Trap State) : Result :=
  match r with
  | .ok t => .next t
  | .error e => .next (s.raise e)

/-! ### The program counter -/

/-- Leaves the pc at `next` of R83, the address of the next instruction in sequence, for an instruction of `n` words at the pc (R85). -/
def State.advance (s : State) (n : Nat) : State := { s with pc := BitVec.ofNat 16 (s.pc.toNat + n) }

/-! ### The Word Store -/

/-- The word of an allocated cell; `none` where no cell is listed, which is an unallocated cell (R41). -/
def Memory.read : Memory → Nat → Option Word
  | [], _ => none
  | (b, w) :: rest, a => if a = b then some w else Memory.read rest a

/-- Whether a cell is allocated: the query operation of R55. -/
def Memory.allocated (m : Memory) (a : Nat) : Bool := (m.read a).isSome

/-- Sets a cell, allocating it, and keeps the addresses strictly rising. -/
def Memory.write : Memory → Nat → Word → Memory
  | [], a, v => [(a, v)]
  | (b, w) :: rest, a, v =>
    if a < b then (a, v) :: (b, w) :: rest
    else if a = b then (a, v) :: rest
    else (b, w) :: Memory.write rest a v

/-- Every listed address is at least `lo` and below `MEM_WORDS`, and addresses strictly rise. -/
def Memory.wfFrom (lo : Nat) : Memory → Bool
  | [] => true
  | (a, _) :: rest => decide (lo ≤ a) && decide (a < Config.memWords) && Memory.wfFrom (a + 1) rest

/-- The canonical form: addresses strictly rising, all below `MEM_WORDS` (R40). An unlisted address reads as unallocated and every
entry holds a word, so no entry equals what an unlisted address reads as, and equal memories are equal lists. -/
def Memory.wf (m : Memory) : Bool := Memory.wfFrom 0 m

/-- The cells of a program image at ascending addresses from `a` (R231). -/
def Memory.ofImage (a : Nat) : List Word → Memory
  | [] => []
  | w :: rest => (a, w) :: Memory.ofImage (a + 1) rest

/-- Sets consecutive cells from `a` up, leaving out addresses that name no cell. -/
def Memory.writeWords (m : Memory) (a : Nat) : List Word → Memory
  | [] => m
  | w :: rest => Memory.writeWords (if a < Config.memWords then m.write a w else m) (a + 1) rest

/-- `MemRead(addr, 1)`, R42. -/
def State.memRead (s : State) (addr : Nat) : Except Trap Word :=
  if Config.memWords ≤ addr then .error ⟨.addressingError, addr⟩
  else match s.mem.read addr with
    | some w => .ok w
    | none => .error ⟨.addressingError, addr⟩

/-- `MemWrite(addr, 1, v)`, R43. -/
def State.memWrite (s : State) (addr : Nat) (v : Word) : Except Trap State :=
  if Config.memWords ≤ addr then .error ⟨.addressingError, addr⟩
  else .ok { s with mem := s.mem.write addr v }

/-- `CheckTarget(t)` and the jump after it, R125: the pc becomes `t` if cell `t` is allocated. -/
def State.jumpTo (s : State) (t : Word) : Except Trap State :=
  if Config.memWords ≤ t.toNat ∨ s.mem.allocated t.toNat = false then .error ⟨.addressingError, t.toNat⟩
  else .ok { s with pc := t }

/-! ### The operand stack -/

/-- Whether a push finds the stack full, R26: only with a bounded capacity. The test is `≥` so that a stack deeper than the bound, which
no run reaches, is full too. -/
def State.stackFull (s : State) : Bool :=
  match s.stackCapacity with
  | none => false
  | some k => decide (k ≤ s.stack.length)

/-- `Push(v)`, R26. -/
def State.pushWord (s : State) (v : Word) : Except Trap State :=
  if s.stackFull = true then .error ⟨.stackOverflow, v.toNat⟩
  else .ok { s with stack := v :: s.stack }

/-- The emptiness check and `Pop()`, R26: the top and the state without it. `op` is the popping instruction, whose opcode word
StackUnderflow records (R202). -/
def State.popWord (s : State) (op : Op) : Except Trap (Word × State) :=
  match s.stack with
  | [] => .error ⟨.stackUnderflow, op.number⟩
  | v :: rest => .ok (v, { s with stack := rest })

/-! ### The I/O channel -/

/-- `Emit(c)`, R183: appends the code to the output log. -/
def State.emit (s : State) (c : Word) : State := { s with output := s.output ++ [c] }

/-- An input event, as the core sees it (R7, R183). -/
inductive InputEvent where
  | char (c : Nat)
  | endOfInput
  deriving DecidableEq, Repr

/-- The first input event of what the input source has delivered, with the line buffer and the items left after it. A line that
holds no code yields no event, and the next item is read (R183). -/
def nextItem : List InputItem → Option (InputEvent × List Nat × List InputItem)
  | [] => none
  | .line [] :: rest => nextItem rest
  | .line (c :: codes) :: rest => some (.char c, codes, rest)
  | .endOfInput :: rest => some (.endOfInput, [], rest)

/-- `Input()`, R183: the next code of the current line, else of a new line; `none` while the host has supplied no event (the hold of
R87, R181). The state is the one with the event consumed. -/
def State.takeInput (s : State) : Option (InputEvent × State) :=
  match s.lineBuffer with
  | c :: codes => some (.char c, { s with lineBuffer := codes })
  | [] =>
    match nextItem s.pendingInput with
    | some (e, codes, rest) => some (e, { s with lineBuffer := codes, pendingInput := rest })
    | none => none

end Sys2Proof.Machine
end

