-- ==== Sys2Proof/Machine/Operands.lean ====
section
/-! DEFINITION. Operand resolution (R65, R66, R84), and the shapes that several instructions share. The only operand forms are
a literal and a register (R67). Operands are resolved in the order A, B, C, and the first that fails raises its fault
(R84), before any check of the instruction's own (R85). -/

namespace Sys2Proof.Machine

/-- `Value(w)`, read-resolution, R65: a literal, or the register's contents as they stand before the instruction writes. -/
def State.value (s : State) : Src → Except Trap Word
  | .lit v => .ok v
  | .reg r => .ok (s.reg r)
  | .outOfRange w => .error ⟨.operandOutOfRange, w.toNat⟩

/-- `Dest(w)`, write-resolution, R66: a register index, never dereferenced. -/
def destIndex : Dst → Except Trap RegIndex
  | .reg r => .ok r
  | .notRegister w => .error ⟨.invalidRegisterIndex, w.toNat⟩

/-- The shape of an L3 instruction that writes a register: `Dest(A)`, `Value(B)`, then `f`'s checks and result. -/
def State.writeUnary (s : State) (a : Dst) (b : Src) (f : Word → Except Trap Word) : Result :=
  s.commit do
    let d ← destIndex a
    let vb ← s.value b
    let v ← f vb
    return (s.setReg d v).advance 3

/-- The shape of an L4 instruction: `Dest(A)`, `Value(B)`, `Value(C)`, then `f`'s checks and result. -/
def State.writeBinary (s : State) (a : Dst) (b c : Src) (f : Word → Word → Except Trap Word) : Result :=
  s.commit do
    let d ← destIndex a
    let vb ← s.value b
    let vc ← s.value c
    let v ← f vb vc
    return (s.setReg d v).advance 4

/-- The shape of a conditional jump: both operands resolved even when it is not taken (R84), then the target check only when it is
taken (R125), else the pc at `next`. -/
def State.branch (s : State) (a b : Src) (taken : Word → Bool) : Result :=
  s.commit do
    let vc ← s.value a
    let t ← s.value b
    if taken vc then s.jumpTo t else return s.advance 3

end Sys2Proof.Machine
end

