-- ==== Sys2Proof/Machine/Alu.lean ====
section
/-! DEFINITION. add, mult, mod, and, or, not (43_alu.md). Arithmetic is unsigned and exact, on naturals, then reduced (R140). -/

namespace Sys2Proof.Machine

/-- The sum modulo 32768, R141. -/
def sumWord (x y : Word) : Word := BitVec.ofNat 16 ((x.toNat + y.toNat) % Config.valueMod)

/-- The exact product modulo 32768, R142. -/
def productWord (x y : Word) : Word := BitVec.ofNat 16 ((x.toNat * y.toNat) % Config.valueMod)

/-- The unsigned remainder, R143, for a divisor that is not zero. -/
def remainderWord (x y : Word) : Word := BitVec.ofNat 16 (x.toNat % y.toNat)

/-- The 15-bit complement, 32767 - v, R146. -/
def complementWord (x : Word) : Word := BitVec.ofNat 16 (Config.valueMax - x.toNat)

/-- `add a b c`, R141. -/
def execAdd (a : Dst) (b c : Src) (s : State) : Result :=
  s.writeBinary a b c fun vb vc => .ok (sumWord vb vc)

/-- `mult a b c`, R142. -/
def execMult (a : Dst) (b c : Src) (s : State) : Result :=
  s.writeBinary a b c fun vb vc => .ok (productWord vb vc)

/-- `mod a b c`, R143: a zero divisor raises ArithmeticError with the divisor's operand word. -/
def execMod (a : Dst) (b c : Src) (s : State) : Result :=
  s.writeBinary a b c fun vb vc =>
    if vc = 0 then .error ⟨.arithmeticError, c.word.toNat⟩ else .ok (remainderWord vb vc)

/-- `and a b c`, R144. -/
def execAnd (a : Dst) (b c : Src) (s : State) : Result :=
  s.writeBinary a b c fun vb vc => .ok (vb &&& vc)

/-- `or a b c`, R145. -/
def execOr (a : Dst) (b c : Src) (s : State) : Result :=
  s.writeBinary a b c fun vb vc => .ok (vb ||| vc)

/-- `not a b`, R146. -/
def execNot (a : Dst) (b : Src) (s : State) : Result :=
  s.writeUnary a b fun vb => .ok (complementWord vb)

end Sys2Proof.Machine
end

