-- ==== Sys2Proof/Machine/Flags.lean ====
section
/-! DEFINITION. The core has no flags, condition codes or predicate registers (R29), so no instruction computes one. What
stands for them: `eq` and `gt` write a truth value into a general register, and `jt` and `jf` test an operand value. -/

namespace Sys2Proof.Machine

/-- The word a comparison writes: exactly 0 or 1 (R120, R121). -/
def truthWord (b : Bool) : Word := if b then 1 else 0

/-- Whether a condition value is true: any value but 0 (R123, R124). -/
def isNonzero (v : Word) : Bool := decide (v ≠ 0)

/-- The comparison of `eq`, R120. -/
def equalTest (x y : Word) : Bool := decide (x = y)

/-- The comparison of `gt`, unsigned, R121. -/
def greaterTest (x y : Word) : Bool := decide (y.toNat < x.toNat)

end Sys2Proof.Machine
end

