-- ==== Sys2Proof/Machine/CompareBranch.lean ====
section
/-! DEFINITION. eq, gt, jmp, jt, jf (42_compare_branch.md). -/

namespace Sys2Proof.Machine

/-- `eq a b c`, R120. -/
def execEq (a : Dst) (b c : Src) (s : State) : Result :=
  s.writeBinary a b c fun vb vc => .ok (truthWord (equalTest vb vc))

/-- `gt a b c`, R121: unsigned. -/
def execGt (a : Dst) (b c : Src) (s : State) : Result :=
  s.writeBinary a b c fun vb vc => .ok (truthWord (greaterTest vb vc))

/-- `jmp a`, R122. -/
def execJmp (a : Src) (s : State) : Result :=
  s.commit do
    let t ← s.value a
    s.jumpTo t

/-- `jt a b`, R123: taken when the condition is not zero. -/
def execJt (a b : Src) (s : State) : Result := s.branch a b isNonzero

/-- `jf a b`, R124: taken when the condition is zero. -/
def execJf (a b : Src) (s : State) : Result := s.branch a b fun v => !isNonzero v

end Sys2Proof.Machine
end

