-- ==== Sys2Proof/Machine/HaltSetStack.lean ====
section
/-! DEFINITION. halt, set, push, pop (41_halt_set_stack.md). -/

namespace Sys2Proof.Machine

/-- `halt`, R100: the run status becomes Halted and the pc stays at `next`. Not a fault (R209). -/
def execHalt (s : State) : Result := .next { s.advance 1 with status := .halted }

/-- `set a b`, R101. -/
def execSet (a : Dst) (b : Src) (s : State) : Result := s.writeUnary a b .ok

/-- `push a`, R102. -/
def execPush (a : Src) (s : State) : Result :=
  s.commit do
    let v ← s.value a
    let t ← s.pushWord v
    return t.advance 2

/-- `pop a`, R103: the destination is resolved before the emptiness check. -/
def execPop (a : Dst) (s : State) : Result :=
  s.commit do
    let d ← destIndex a
    let (v, t) ← s.popWord .pop
    return (t.setReg d v).advance 2

end Sys2Proof.Machine
end

