-- ==== Sys2Proof/Machine/IoNoop.lean ====
section
/-! DEFINITION. out, in, noop (45_io_noop.md). -/

namespace Sys2Proof.Machine

/-- `out a`, R180. -/
def execOut (a : Src) (s : State) : Result :=
  s.commit do
    let c ← s.value a
    return (s.emit c).advance 2

/-- `in a`, R181: the destination is resolved before any input is taken. With no event available the core holds, which changes
nothing (R87; assumption log 6). An event that a faulting `in` consumed is not restored (R204), so those faults are raised in the
state without it. -/
def execIn (a : Dst) (s : State) : Result :=
  match destIndex a with
  | .error e => .next (s.raise e)
  | .ok d =>
    match s.takeInput with
    | none => .next s
    | some (.char c, t) =>
      if Config.valueMax < c then .next (t.raise ⟨.valueOutOfRange, c⟩)
      else .next ((t.setReg d (BitVec.ofNat 16 c)).advance 2)
    | some (.endOfInput, t) => .next (t.raise ⟨.inputEndOfFile, 0⟩)

/-- `noop`, R182. -/
def execNoop (s : State) : Result := .next (s.advance 1)

end Sys2Proof.Machine
end

