-- ==== Sys2Proof/Machine/MemoryCall.lean ====
section
/-! DEFINITION. rmem, wmem, call, ret (44_memory_call.md). -/

namespace Sys2Proof.Machine

/-- `rmem a b`, R160: AddressingError for an unallocated cell, then ValueOutOfRange for a stored word above 32767. -/
def execRmem (a : Dst) (b : Src) (s : State) : Result :=
  s.writeUnary a b fun t => do
    let w ← s.memRead t.toNat
    if Config.valueMax < w.toNat then .error ⟨.valueOutOfRange, w.toNat⟩ else .ok w

/-- `wmem a b`, R161: the first operand is the address, the second the value. -/
def execWmem (a b : Src) (s : State) : Result :=
  s.commit do
    let t ← s.value a
    let v ← s.value b
    let u ← s.memWrite t.toNat v
    return u.advance 3

/-- `call a`, R162: the return address is checked, then the target, then the stack. -/
def execCall (a : Src) (s : State) : Result :=
  s.commit do
    let t ← s.value a
    let r := s.pc.toNat + 2
    if Config.memWords ≤ r then .error ⟨.addressingError, r⟩
    else
      let u ← s.jumpTo t
      u.pushWord (BitVec.ofNat 16 r)

/-- `ret`, R163: the emptiness check comes first (C5), and a target that fails its check is not popped, since a fault discards the pop
(`State.commit`). -/
def execRet (s : State) : Result :=
  s.commit do
    let (t, u) ← s.popWord .ret
    u.jumpTo t

end Sys2Proof.Machine
end

