-- ==== Sys2Proof/Machine/Engine.lean ====
section
/-! DEFINITION. The execution engine: fetch, decode and execute as one atomic step (40_engine.md). -/

namespace Sys2Proof.Machine

/-- Reads up to `n` consecutive words from `addr`, ending before the first that cannot be read. Reading has no effect (R42, R51), so
words past the instruction's end may be read too. -/
def State.readableWords (s : State) (addr : Nat) : Nat → List Word
  | 0 => []
  | n + 1 =>
    match s.memRead addr with
    | .ok w => w :: s.readableWords (addr + 1) n
    | .error _ => []

/-- Fetch and decode, R81 to R83: the instruction at the pc, or AddressingError for its first word that cannot be read, or InvalidOpcode
before any operand word. -/
def State.fetch (s : State) : Except Trap Instr :=
  match decode (s.readableWords s.pc.toNat Config.maxLength) with
  | .ok (i, _) => .ok i
  | .error (.invalidOpcode w) => .error ⟨.invalidOpcode, w.toNat⟩
  | .error (.missingWord k) => .error ⟨.addressingError, s.pc.toNat + k⟩

/-- The step of R89. It is enabled only in Running (R80); the two ends answer a fault of the model's own (assumption log 5). -/
def engineStep (s : State) : Result :=
  match s.status with
  | .running =>
    match s.fetch with
    | .ok i => exec i s
    | .error e => .next (s.raise e)
  | .halted => .fault .runHalted
  | .faulted r => .fault (.runFaulted r)

/-- Whether the core is Running and holds in `in` (R87): it takes no step until the host supplies an input event. -/
def State.holding (s : State) : Bool :=
  match s.status, s.fetch with
  | .running, .ok (.in_ (.reg _)) => s.takeInput.isNone
  | _, _ => false

end Sys2Proof.Machine
end

