-- ==== Sys2Proof/Machine/Step.lean ====
section
/-! DEFINITION. One step of the machine, and placing an instruction where the next step fetches it. -/

namespace Sys2Proof.Machine

/-- One step, R89. -/
def step (s : State) : Host.Outcome State Fault Refusal := engineStep s

/-- The state with an instruction's words (bits numbered as the opcode table numbers them) in the cells from the pc up, and Running, so
that the next step fetches and runs it. It stands for the host's load (R231, assumption log 13). -/
def State.withFetchWord (s : State) (nbits w : Nat) : State :=
  { s with mem := s.mem.writeWords s.pc.toNat (tableWords nbits w), status := .running }

end Sys2Proof.Machine
end

