-- ==== Sys2Proof/Machine/HostActions.lean ====
section
/-! DEFINITION. What the host can do to the core, and when (R211), and the end of a run (R238).

`State.load` and `State.deliver` say what the actions do to the core. `Session` adds what only the host knows, how far it is with its calls,
and its functions are the host's actions themselves, each possible only when R211 allows it. -/

namespace Sys2Proof.Machine

/-- A run is over exactly when the status is Halted or Faulted (R238). -/
def State.ended (s : State) : Bool :=
  match s.status with
  | .running => false
  | .halted => true
  | .faulted _ => true

/-- `Load` as R231 writes it, of an image of at most 32768 words; a longer image is refused by the loader and never reaches the core (R233),
so it loads no state. The output log and the line buffer start empty (R230); the two OPEN parameters stay (assumption log 14). When
the host may load is `Session.load`'s to say. -/
def State.load (s : State) (image : List Word) : Option State :=
  if image.length ≤ Config.memWords then
    some { State.reset with
      mem := Memory.ofImage 0 image
      stackCapacity := s.stackCapacity
      pendingInput := s.pendingInput }
  else none

/-- Whether what the input source supplies holds an input event: a line without codes holds none (R183, assumption log 7). -/
def InputItem.hasEvent : InputItem → Bool
  | .line [] => false
  | .line (_ :: _) => true
  | .endOfInput => true

/-- One more item behind what the input source has supplied already. -/
def State.supply (s : State) (item : InputItem) : State :=
  { s with pendingInput := s.pendingInput ++ [item] }

/-- The host delivers an input event: only while the core holds in `in` (R181, R211). -/
def State.deliver (s : State) (item : InputItem) : Option State :=
  if s.holding && item.hasEvent then some (s.supply item) else none

/-- How far the host is with its calls. This is the host's knowledge and no state of the core, whose status is Running from its construction
on (R230; assumption log 18). -/
inductive RunPhase where
  /-- no program has been loaded -/
  | constructed
  /-- a program has been loaded, and `run()` not been called since -/
  | loaded
  /-- `run()` has been called and has not returned -/
  | inRun
  /-- `run()` has returned -/
  | returned
  deriving DecidableEq, Repr

/-- The machine in the host's hands. -/
structure Session where
  core : State
  phase : RunPhase
  deriving DecidableEq, Repr

/-- `Machine(debug)`, R211: `debug` has no architectural effect (R90). -/
def Session.construct (_debug : Bool) : Session := ⟨State.reset, .constructed⟩

/-- The host loads a program: only while the core is not running (R211, R231). -/
def Session.load (h : Session) (image : List Word) : Option Session :=
  match h.phase with
  | .inRun => none
  | .constructed | .loaded | .returned => (h.core.load image).map fun t => ⟨t, .loaded⟩

/-- The host calls `run()`: only after a load (R211), and to run again only after a new one (R207). -/
def Session.run (h : Session) : Option Session :=
  match h.phase with
  | .loaded => some { h with phase := .inRun }
  | .constructed | .inRun | .returned => none

/-- The host delivers an input event: only during a run, while the core holds (R211). -/
def Session.deliver (h : Session) (item : InputItem) : Option Session :=
  match h.phase with
  | .inRun => (h.core.deliver item).map fun t => { h with core := t }
  | .constructed | .loaded | .returned => none

/-- The host's actions on the core. Construction makes a session, and receiving output and reading the final status change nothing, so
these three are all (R211). -/
inductive HostAction where
  | load (image : List Word)
  | run
  | deliver (item : InputItem)
  deriving DecidableEq, Repr

/-- What an action of the host leaves; `none` where R211 does not allow it. -/
def Session.act (h : Session) : HostAction → Option Session
  | .load image => h.load image
  | .run => h.run
  | .deliver item => h.deliver item

/-- The core steps only while `run()` is in progress, and `run()` returns with the step that ends the run (R211, R238). -/
def Session.step (h : Session) : Option Session :=
  match h.phase with
  | .inRun =>
    match Sys2Proof.Machine.step h.core with
    | .next t => some ⟨t, if t.ended then .returned else .inRun⟩
    | .fault _ => none
    | .refused _ => none
  | .constructed | .loaded | .returned => none

/-- The output codes the host has received from the run so far, R211. -/
def Session.received (h : Session) : List Word := h.core.output

/-- The final status, which the host can read once `run()` has returned, R211. -/
def Session.finalStatus (h : Session) : Option RunStatus :=
  match h.phase with
  | .returned => some h.core.status
  | .constructed | .loaded | .inRun => none

end Sys2Proof.Machine
end

