-- ==== Sys2Proof/Safety.lean ====
section
/-! DEFINITION. The invariant of a safe run. -/

namespace Sys2Proof.Machine

/-- Every word of a list is in [0, 32767]. -/
def wordsInRange (ws : List Word) : Bool := ws.all fun v => decide (v.toNat ≤ Config.valueMax)

/-- The stack is no deeper than its capacity, where it is bounded (R26). -/
def State.stackWithinCapacity (s : State) : Bool :=
  match s.stackCapacity with
  | none => true
  | some k => decide (s.stack.length ≤ k)

/-- A recorded fault names the instruction the pc points at (R203), and its `info` is below 65536 for every kind but ValueOutOfRange, which
`in` may raise with a larger code (R31). -/
def State.recordConsistent (s : State) : Bool :=
  match s.status with
  | .running => true
  | .halted => true
  | .faulted r => decide (r.addr = s.pc) && (decide (r.kind = .valueOutOfRange) || decide (r.info < 65536))

/-- What every step keeps: register, stack and output values in [0, 32767] (R21, R25, R180), the pc in 0 to 32768 (R23), the Word Store in its
canonical form with no cell outside 0 to 32767 (R40), the stack within its capacity (R26), and the fault record consistent (R31, R203). -/
abbrev State.Inv (s : State) : Prop :=
  (∀ r : RegIndex, (s.reg r).toNat ≤ Config.valueMax) ∧
  wordsInRange s.stack = true ∧
  wordsInRange s.output = true ∧
  s.pc.toNat ≤ Config.memWords ∧
  s.mem.wf = true ∧
  s.stackWithinCapacity = true ∧
  s.recordConsistent = true

end Sys2Proof.Machine
end

