-- ==== Sys2Proof/Certificates/Slice0/Obligations.lean ====
section
/-! DEFINITION. What is claimed of the model: one definition per statement, for the provers. Each docstring names the rules of the
spec it formalises. The helpers under `Sys2Proof.Claims` write the spec's own primitives (R7) out a second time, from the
rules and not from the model's definitions, so that the statements compare the two. -/

namespace Sys2Proof.Claims

open Sys2Proof.Machine

/-- `Value(w)` as R65 writes it. -/
def readResolve (s : State) (w : Word) : Except Trap Word :=
  if w.toNat ≤ 32767 then .ok w
  else if w.toNat ≤ 32775 then .ok (s.reg (Fin.ofNat 8 (w.toNat - 32768)))
  else .error ⟨.operandOutOfRange, w.toNat⟩

/-- `Dest(w)` as R66 writes it. -/
def writeResolve (w : Word) : Except Trap RegIndex :=
  if 32768 ≤ w.toNat ∧ w.toNat ≤ 32775 then .ok (Fin.ofNat 8 (w.toNat - 32768))
  else .error ⟨.invalidRegisterIndex, w.toNat⟩

/-- The number of operand words of each opcode, the formats of R61 and R63; 0 for a value that is no opcode. -/
def arity : Nat → Nat
  | 1 => 2 | 2 => 1 | 3 => 1 | 4 => 3 | 5 => 3 | 6 => 1 | 7 => 2 | 8 => 2 | 9 => 3 | 10 => 3 | 11 => 3
  | 12 => 3 | 13 => 3 | 14 => 2 | 15 => 2 | 16 => 2 | 17 => 1 | 19 => 1 | 20 => 1 | _ => 0

/-- `next` of R83 for an instruction of `n` words at the pc. -/
def seqPc (s : State) (n : Nat) : Word := BitVec.ofNat 16 (s.pc.toNat + n)

/-- The target check of R125 passes. -/
def TargetOk (s : State) (t : Word) : Prop := t.toNat < 32768 ∧ s.mem.read t.toNat ≠ none

/-- The fault entry of R203 with a precise state, R204: the status records kind, instruction address and info, the pc stays at the instruction,
and nothing else changes. -/
def faultState (s : State) (k : FaultKind) (info : Nat) : State := { s with status := .faulted ⟨k, s.pc, info⟩ }

/-- Executing `i` raises this fault. -/
def Raises (i : Instr) (s : State) (k : FaultKind) (info : Nat) : Prop := exec i s = .next (faultState s k info)

/-- R84 for one destination operand: if it fails to resolve, its fault is raised. -/
def FaultsD (i : Instr) (s : State) (A : Word) : Prop :=
  ∀ e, writeResolve A = .error e → Raises i s e.kind e.info

/-- R84 for one source operand. -/
def FaultsS (i : Instr) (s : State) (A : Word) : Prop :=
  ∀ e, readResolve s A = .error e → Raises i s e.kind e.info

/-- R84 for a destination and a source, in this order. -/
def FaultsDS (i : Instr) (s : State) (A B : Word) : Prop :=
  FaultsD i s A ∧ ∀ d e, writeResolve A = .ok d → readResolve s B = .error e → Raises i s e.kind e.info

/-- R84 for two sources, in this order. -/
def FaultsSS (i : Instr) (s : State) (A B : Word) : Prop :=
  FaultsS i s A ∧ ∀ v e, readResolve s A = .ok v → readResolve s B = .error e → Raises i s e.kind e.info

/-- R84 for a destination and two sources, in this order. -/
def FaultsDSS (i : Instr) (s : State) (A B C : Word) : Prop :=
  FaultsDS i s A B ∧
  ∀ d v e, writeResolve A = .ok d → readResolve s B = .ok v → readResolve s C = .error e → Raises i s e.kind e.info

/-- R81 and R83 for an instruction with this opcode and `n` operand words: the first of its words that cannot be read, word `k` (0 is the opcode
word), raises AddressingError with that word's address. -/
def FetchFaults (op : Word) (n : Nat) : Prop :=
  ∀ (s : State) (k : Nat), s.status = .running → k ≤ n → (1 ≤ k → s.memRead s.pc.toNat = .ok op) →
    (∀ j, j < k → ∃ v, s.memRead (s.pc.toNat + j) = .ok v) → (∀ v, s.memRead (s.pc.toNat + k) ≠ .ok v) →
    step s = .next (faultState s .addressingError (s.pc.toNat + k))

/-- The rule of an instruction of format L4 that writes the value `f vb vc` into the register A names, and has no fault of its own: its
encoding, its whole next state when the operands resolve, and the common faults of fetch and operands. -/
def BinaryRule (mk : Dst → Src → Src → Instr) (opcode : Word) (f : Word → Word → Word) : Prop :=
  FetchFaults opcode 3 ∧ ∀ (s : State) (A B C : Word),
    decode [opcode, A, B, C] = .ok (mk (Dst.ofWord A) (Src.ofWord B) (Src.ofWord C), []) ∧
    (∀ d vb vc, writeResolve A = .ok d → readResolve s B = .ok vb → readResolve s C = .ok vc →
      exec (mk (Dst.ofWord A) (Src.ofWord B) (Src.ofWord C)) s =
        .next { s with regs := s.regs.set d (f vb vc), pc := seqPc s 4 }) ∧
    FaultsDSS (mk (Dst.ofWord A) (Src.ofWord B) (Src.ofWord C)) s A B C

/-- The same for format L3 with a destination and one source. -/
def UnaryRule (mk : Dst → Src → Instr) (opcode : Word) (f : Word → Word) : Prop :=
  FetchFaults opcode 2 ∧ ∀ (s : State) (A B : Word),
    decode [opcode, A, B] = .ok (mk (Dst.ofWord A) (Src.ofWord B), []) ∧
    (∀ d vb, writeResolve A = .ok d → readResolve s B = .ok vb →
      exec (mk (Dst.ofWord A) (Src.ofWord B)) s =
        .next { s with regs := s.regs.set d (f vb), pc := seqPc s 3 }) ∧
    FaultsDS (mk (Dst.ofWord A) (Src.ofWord B)) s A B

/-- The rule of a conditional jump taken on the condition values `taken` holds of. -/
def BranchRule (mk : Src → Src → Instr) (opcode : Word) (taken : Word → Prop) : Prop :=
  FetchFaults opcode 2 ∧ ∀ (s : State) (A B : Word),
    decode [opcode, A, B] = .ok (mk (Src.ofWord A) (Src.ofWord B), []) ∧
    (∀ vc t, readResolve s A = .ok vc → readResolve s B = .ok t →
      (¬ taken vc → exec (mk (Src.ofWord A) (Src.ofWord B)) s = .next { s with pc := seqPc s 3 }) ∧
      (taken vc → TargetOk s t → exec (mk (Src.ofWord A) (Src.ofWord B)) s = .next { s with pc := t }) ∧
      (taken vc → ¬ TargetOk s t → Raises (mk (Src.ofWord A) (Src.ofWord B)) s .addressingError t.toNat)) ∧
    FaultsSS (mk (Src.ofWord A) (Src.ofWord B)) s A B

/-- The I/O channel and the two OPEN parameters are the same in both states. -/
def SameChannel (s t : State) : Prop :=
  t.output = s.output ∧ t.lineBuffer = s.lineBuffer ∧ t.pendingInput = s.pendingInput ∧ t.stackCapacity = s.stackCapacity

/-- The run status is kept, or a fault is recorded. -/
def StatusKeptOrFaulted (s t : State) : Prop := t.status = s.status ∨ ∃ r, t.status = .faulted r

/-- Every address of the Word Store reads in `t` as in `s`. -/
def SameMemory (s t : State) : Prop := ∀ a, t.mem.read a = s.mem.read a

/-- Every register reads in `t` as in `s`. -/
def SameRegisters (s t : State) : Prop := ∀ r, t.reg r = s.reg r

/-- The words of an instruction stand at the pc. -/
def PlacedAtPc (s : State) (i : Instr) : Prop :=
  ∀ k w, (encode i)[k]? = some w → s.memRead (s.pc.toNat + k) = .ok w

end Sys2Proof.Claims

open Sys2Proof Sys2Proof.Machine Sys2Proof.Claims

/-! ### Encoding and operands -/

/-- Words written out from the encodings of R61 and R63 and the examples of 95_test_vectors.md decode to the instruction each stands
for: one of every family. -/
def Obligations.WrittenWordsDecode : Prop :=
  decode [0] = .ok (.halt, []) ∧
  decode [1, 32768, 4] = .ok (.set (.reg 0) (.lit 4), []) ∧
  decode [2, 32769] = .ok (.push (.reg 1), []) ∧
  decode [4, 32768, 32769, 7] = .ok (.eq (.reg 0) (.reg 1) (.lit 7), []) ∧
  decode [7, 32768, 100] = .ok (.jt (.reg 0) (.lit 100), []) ∧
  decode [11, 32768, 17, 5] = .ok (.mod (.reg 0) (.lit 17) (.lit 5), []) ∧
  decode [16, 100, 1234] = .ok (.wmem (.lit 100) (.lit 1234), []) ∧
  decode [17, 9] = .ok (.call (.lit 9), []) ∧
  decode [20, 32770] = .ok (.in_ (.reg 2), []) ∧
  decode [1, 5, 32776] = .ok (.set (.notRegister 5) (.outOfRange 32776), [])

/-- Decode and encode agree: decoding the words of a well-formed instruction gives it back, and leaves the words after it. -/
def Obligations.DecodeOfEncode : Prop :=
  ∀ (i : Instr) (rest : List Word), i.wellFormed = true → decode (encode i ++ rest) = .ok (i, rest)

/-- The other direction: words that decode are exactly the words of the instruction they decode to, which is well formed. -/
def Obligations.EncodeOfDecode : Prop :=
  ∀ (ws rest : List Word) (i : Instr), decode ws = .ok (i, rest) → i.wellFormed = true ∧ ws = encode i ++ rest

/-- R62: the opcode word is compared raw; a value above 21, a register reference among them, selects no instruction, whatever words
follow, and a value up to 21 always selects one. -/
def Obligations.OpcodeComparedRaw : Prop :=
  ∀ (w : Word) (rest : List Word),
    (21 < w.toNat → decode (w :: rest) = .error (.invalidOpcode w)) ∧
    (w.toNat ≤ 21 → ∀ v, decode (w :: rest) ≠ .error (.invalidOpcode v))

/-- R69: the length is 1 + n words, n the arity of the opcode, known from the opcode word alone; with fewer operand words the first missing
word is named; an invalid opcode has no length and is found before any operand word. -/
def Obligations.LengthFromOpcodeAlone : Prop :=
  ∀ (w : Word) (rest : List Word),
    (w.toNat ≤ 21 → arity w.toNat ≤ rest.length → ∃ i, decode (w :: rest) = .ok (i, rest.drop (arity w.toNat)) ∧ (encode i).length = 1 + arity w.toNat) ∧
    (w.toNat ≤ 21 → rest.length < arity w.toNat → decode (w :: rest) = .error (.missingWord (1 + rest.length))) ∧
    (21 < w.toNat → decode (w :: rest) = .error (.invalidOpcode w))

/-- R65: read-resolution of every word, and its result in [0, 32767] in every state that meets the invariant. -/
def Obligations.ReadResolution : Prop :=
  ∀ (s : State) (w : Word),
    s.value (Src.ofWord w) = readResolve s w ∧
    (s.Inv → ∀ v, s.value (Src.ofWord w) = .ok v → v.toNat ≤ 32767)

/-- R66: write-resolution of every word; no register is read. -/
def Obligations.WriteResolution : Prop := ∀ w : Word, destIndex (Dst.ofWord w) = writeResolve w

/-! ### The engine -/

/-- A step runs the decoded instruction: where a well-formed instruction's words stand at the pc of a Running core, the step is that
instruction's execution. The fetches' own pc advances are part of the meaning's `next` (R83, R86). -/
def Obligations.StepRunsDecodedInstruction : Prop :=
  ∀ (s : State) (i : Instr), s.status = .running → i.wellFormed = true → PlacedAtPc s i → step s = exec i s

/-- Placing an instruction's words for the fetch: where they decode, and the pc leaves room for the longest instruction, the next step runs
exactly the decoded instruction. That
`withFetchWord` stands for the load is the model's choice (assumption log 13). -/
def Obligations.PlacedInstructionRunsNext : Prop :=
  ∀ (s : State) (nbits w : Nat) (i : Instr), s.pc.toNat ≤ 32764 → decodeTableWord nbits w = some i →
    step (s.withFetchWord nbits w) = exec i (s.withFetchWord nbits w)

/-- R81 to R83 and the first three places of R205: an opcode word that cannot be read, then an invalid opcode, then the first operand word
that cannot be read. -/
def Obligations.FetchFaultsInOrder : Prop :=
  ∀ s : State, s.status = .running →
    (∀ e, s.memRead s.pc.toNat = .error e → step s = .next (faultState s .addressingError s.pc.toNat)) ∧
    (∀ w, s.memRead s.pc.toNat = .ok w → 21 < w.toNat → step s = .next (faultState s .invalidOpcode w.toNat)) ∧
    (∀ w k e, s.memRead s.pc.toNat = .ok w → w.toNat ≤ 21 → 1 ≤ k → k ≤ arity w.toNat →
      (∀ j, j < k → ∃ v, s.memRead (s.pc.toNat + j) = .ok v) → s.memRead (s.pc.toNat + k) = .error e →
      step s = .next (faultState s .addressingError (s.pc.toNat + k)))

/-- R28, R80 and R238: a Running core answers a next state and no other core does; a run is over exactly when no step is taken. That a hold answers the same state, and a core at its end a
fault that carries the final status, are the model's choices (assumption log 5 and 6). The host sees steps only
while its `run()` is in progress, and reads the final status once the run is over (R211; assumption log 18). -/
def Obligations.StepTakenOnlyWhileRunning : Prop :=
  ∀ s : State,
    (s.status = .running → ∃ t, step s = .next t) ∧
    (s.status = .halted → step s = .fault .runHalted) ∧
    (∀ r, s.status = .faulted r → step s = .fault (.runFaulted r)) ∧
    (s.ended = true ↔ ∀ t, step s ≠ .next t) ∧
    ∀ h k : Session, h.step = some k →
      h.phase = .inRun ∧ step h.core = .next k.core ∧ k.finalStatus = if k.core.ended then some k.core.status else none

/-- The outcomes of R87: the core goes on Running, or halts at `halt` with the pc past it, or faults with the pc at the instruction; a hold
changes nothing. That a hold answers a next state is the model's choice (assumption log 6). -/
def Obligations.StepOutcomes : Prop :=
  ∀ s t : State, s.status = .running → step s = .next t →
    (s.holding = true ∧ t = s) ∨
    (s.holding = false ∧ t.status = .running ∧ s.fetch ≠ .ok .halt) ∨
    (s.fetch = .ok .halt ∧ t = { s with status := .halted, pc := seqPc s 1 }) ∨
    (∃ k info, t.status = .faulted ⟨k, s.pc, info⟩ ∧ t.pc = s.pc)

/-- R203 and R204: a faulting step leaves every register, the stack, the Word Store and the output log as they were; the pc is the instruction's
address and the status records it; no further step is taken; only an input event that `in` consumed is gone. -/
def Obligations.FaultsArePrecise : Prop :=
  ∀ (s t : State) (r : FaultRecord), s.status = .running → step s = .next t → t.status = .faulted r →
    r.addr = s.pc ∧ t.pc = s.pc ∧ t.regs = s.regs ∧ t.stack = s.stack ∧ t.mem = s.mem ∧ t.output = s.output ∧
    t.stackCapacity = s.stackCapacity ∧ (∀ u, step t ≠ .next u) ∧
    ((∀ d, s.fetch ≠ .ok (.in_ (.reg d))) → t.lineBuffer = s.lineBuffer ∧ t.pendingInput = s.pendingInput) ∧
    (∀ d, s.fetch = .ok (.in_ (.reg d)) → ∃ e u, s.takeInput = some (e, u) ∧ t = faultState u r.kind r.info)

/-- R202: every fault a step raises has the cause its kind names, comes from an instruction the table lists, and records the info the table
gives. An AddressingError whose instruction could be fetched is one of its own checks, and none is `wmem`'s. -/
def Obligations.FaultKindsHaveTheirCauses : Prop :=
  ∀ (s t : State) (k : FaultKind) (a : Word) (info : Nat),
    s.status = .running → step s = .next t → t.status = .faulted ⟨k, a, info⟩ →
    match k with
    | .invalidOpcode => ∃ w, s.memRead s.pc.toNat = .ok w ∧ 21 < w.toNat ∧ info = w.toNat
    | .operandOutOfRange => ∃ i w, s.fetch = .ok i ∧ Src.outOfRange w ∈ i.sources ∧ 32775 < w.toNat ∧ info = w.toNat
    | .invalidRegisterIndex =>
      ∃ i w, s.fetch = .ok i ∧ i.destination = some (.notRegister w) ∧ (w.toNat < 32768 ∨ 32775 < w.toNat) ∧ info = w.toNat
    | .stackUnderflow =>
      s.stack = [] ∧ ((∃ d, s.fetch = .ok (.pop (.reg d)) ∧ info = 3) ∨ (s.fetch = .ok .ret ∧ info = 18))
    | .arithmeticError => ∃ d b c, s.fetch = .ok (.mod (.reg d) b c) ∧ s.value c = .ok 0 ∧ info = c.word.toNat
    | .addressingError =>
      (32768 ≤ info ∨ s.mem.read info = none) ∧
      ∀ i, s.fetch = .ok i → s.Inv → ∃ d b c, i = .rmem d b ∨ i = .jmp b ∨ i = .jt c b ∨ i = .jf c b ∨ i = .call b ∨ i = .ret
    | .valueOutOfRange =>
      32767 < info ∧
      ((∃ d b x w, s.fetch = .ok (.rmem (.reg d) b) ∧ s.value b = .ok x ∧ s.mem.read x.toNat = some w ∧ info = w.toNat) ∨
       ∃ d u, s.fetch = .ok (.in_ (.reg d)) ∧ s.takeInput = some (.char info, u))
    | .inputEndOfFile => info = 0 ∧ ∃ d u, s.fetch = .ok (.in_ (.reg d)) ∧ s.takeInput = some (.endOfInput, u)
    | .stackOverflow =>
      ∃ k, s.stackCapacity = some k ∧ k ≤ s.stack.length ∧
        ((∃ b v, s.fetch = .ok (.push b) ∧ s.value b = .ok v ∧ info = v.toNat) ∨
         ∃ b, s.fetch = .ok (.call b) ∧ info = s.pc.toNat + 2)

/-- R201: the cause codes are 1 to 9 in this order, one a kind. -/
def Obligations.CauseCodes : Prop :=
  ([FaultKind.invalidOpcode, .operandOutOfRange, .invalidRegisterIndex, .stackUnderflow, .arithmeticError, .addressingError,
    .valueOutOfRange, .inputEndOfFile, .stackOverflow].map FaultKind.code) = [1, 2, 3, 4, 5, 6, 7, 8, 9] ∧
  ∀ j k : FaultKind, j.code = k.code → j = k

/-! ### Invariant, reset, load -/

/-- The invariant is kept by every step, from every state that meets it: R21, R23, R25, R26, R31, R40. That the Word Store is a canonical list
is the model's own (assumption log 1). -/
def Obligations.StepKeepsInvariant : Prop := ∀ s t : State, s.Inv → step s = .next t → t.Inv

/-- The invariant holds after reset. -/
def Obligations.ResetMeetsInvariant : Prop := State.reset.Inv

/-- R230 with the empty image: the values the spec states for reset. -/
def Obligations.ResetValues : Prop :=
  (∀ r, State.reset.reg r = 0) ∧ State.reset.pc = 0 ∧ State.reset.stack = [] ∧
  (∀ a, State.reset.mem.read a = none) ∧ State.reset.status = .running ∧
  State.reset.output = [] ∧ State.reset.lineBuffer = []

/-- R231 with the launch premise of R233: a load of up to 32768 words resets registers, stack, pc and status, and allocates exactly the image's
cells with the image's words; the loaded state meets the invariant. A longer image loads nothing (R233). That an
over-long image answers no state, that the effect is defined from every state, and what it keeps, are the model's choices (assumption log 14). The host loads only while no run is
in progress (R211), and then it can call `run()` (assumption log 18). -/
def Obligations.LoadStartsFreshRun : Prop :=
  ∀ (s : State) (image : List Word),
    (image.length ≤ 32768 → ∃ t, s.load image = some t ∧ (∀ r, t.reg r = 0) ∧ t.stack = [] ∧ t.pc = 0 ∧ t.status = .running ∧
      t.output = [] ∧ t.lineBuffer = [] ∧ (∀ a, t.mem.read a = image[a]?) ∧ t.Inv) ∧
    (32768 < image.length → s.load image = none) ∧
    ∀ h : Session, h.core = s →
      (h.phase = .inRun → h.load image = none) ∧
      (h.phase ≠ .inRun → image.length ≤ 32768 →
        ∃ k, h.load image = some k ∧ s.load image = some k.core ∧ k.run = some { k with phase := .inRun }) ∧
      (h.phase ≠ .inRun → 32768 < image.length → h.load image = none)

/-! ### Storage -/

/-- R20: a register reads what was last written to it, and a write leaves the other seven alone. -/
def Obligations.RegisterReadAfterWrite : Prop :=
  ∀ (b : RegBank) (d r : RegIndex) (v : Word), (b.set d v).get r = if r = d then v else b.get r

/-- R42 and R43: a memory read raises AddressingError exactly for an unallocated cell or an address from 32768 up and has no other result than
the cell's word; a write below 32768 allocates the cell, is read back, leaves every other address alone and keeps the canonical form. The canonical form is the model's own
(assumption log 1). -/
def Obligations.MemoryReadAndWrite : Prop :=
  ∀ (s : State) (a : Nat) (v : Word),
    (32768 ≤ a → s.memRead a = .error ⟨.addressingError, a⟩ ∧ s.memWrite a v = .error ⟨.addressingError, a⟩) ∧
    (a < 32768 → s.mem.read a = none → s.memRead a = .error ⟨.addressingError, a⟩) ∧
    (a < 32768 → ∀ w, s.mem.read a = some w → s.memRead a = .ok w) ∧
    (a < 32768 → ∃ t, s.memWrite a v = .ok t ∧ t = { s with mem := t.mem } ∧ (s.mem.wf = true → t.mem.wf = true) ∧
      ∀ b, t.mem.read b = if b = a then some v else s.mem.read b)

/-- The canonical form makes equal memories equal data: two that read alike everywhere are one list. The form
is the model's own (assumption log 1). -/
def Obligations.CanonicalMemoryIsUnique : Prop :=
  ∀ m n : Memory, m.wf = true → n.wf = true → (∀ a, m.read a = n.read a) → m = n

/-- R41: no step undoes an allocation, and only a `wmem` allocates a cell, the one at its address. -/
def Obligations.AllocationNeverUndone : Prop :=
  ∀ (s t : State) (a : Nat), step s = .next t →
    (s.mem.read a ≠ none → t.mem.read a ≠ none) ∧
    (s.mem.read a = none → t.mem.read a ≠ none → ∃ x y v, s.fetch = .ok (.wmem x y) ∧ s.value x = .ok v ∧ v.toNat = a)

/-! ### What each kind of instruction leaves alone -/

/-- The frame of the instructions that write one register: set, eq, gt, add, mult, mod, and, or, not, rmem. Only the destination register, the pc
and, on a fault, the status may change. -/
def Obligations.RegisterInstructionsFrame : Prop :=
  ∀ (a : Dst) (b c : Src) (i : Instr) (s t : State),
    i ∈ [Instr.set a b, .eq a b c, .gt a b c, .add a b c, .mult a b c, .mod a b c, .and a b c, .or a b c, .not a b, .rmem a b] →
    exec i s = .next t →
    (∀ r, a ≠ .reg r → t.reg r = s.reg r) ∧ t.stack = s.stack ∧ SameMemory s t ∧ SameChannel s t ∧ StatusKeptOrFaulted s t

/-- The frame of `wmem`: it stores one word, at the value of its first operand; every other address, and every register, reads as before. Where
the address does not resolve it stores nothing. -/
def Obligations.WmemFrame : Prop :=
  ∀ (a b : Src) (s t : State), exec (.wmem a b) s = .next t →
    (∀ v, s.value a = .ok v → ∀ addr, addr ≠ v.toNat → t.mem.read addr = s.mem.read addr) ∧
    (∀ e, s.value a = .error e → SameMemory s t) ∧
    SameRegisters s t ∧ t.stack = s.stack ∧ SameChannel s t ∧ StatusKeptOrFaulted s t

/-- The frame of the stack instructions push, pop, call, ret: no memory word, no register but `pop`'s destination and no channel state changes, and
the stack changes by one entry at its top or not at all. -/
def Obligations.StackInstructionsFrame : Prop :=
  ∀ (a : Src) (d : Dst) (i : Instr) (s t : State), i ∈ [Instr.push a, .pop d, .call a, .ret] → exec i s = .next t →
    (∀ r, (i = .pop d → d ≠ .reg r) → t.reg r = s.reg r) ∧ SameMemory s t ∧ SameChannel s t ∧ StatusKeptOrFaulted s t ∧
    (t.stack = s.stack ∨ ((i = .push a ∨ i = .call a) ∧ ∃ v, t.stack = v :: s.stack) ∨
      ((i = .pop d ∨ i = .ret) ∧ ∃ v, s.stack = v :: t.stack))

/-- The frame of halt, noop and the jumps jmp, jt, jf: only the pc and the status may change, and without a fault only `halt` changes the status. -/
def Obligations.ControlInstructionsFrame : Prop :=
  ∀ (a b : Src) (i : Instr) (s t : State), i ∈ [Instr.halt, .noop, .jmp a, .jt a b, .jf a b] → exec i s = .next t →
    SameRegisters s t ∧ t.stack = s.stack ∧ SameMemory s t ∧ SameChannel s t ∧ (i ≠ .halt → StatusKeptOrFaulted s t) ∧
    (i = .halt → t.status = .halted)

/-- The frame of `out` and `in`: `out` changes the output log alone, at its end; `in` changes its destination register and the channel's input alone. -/
def Obligations.ChannelInstructionsFrame : Prop :=
  ∀ (a : Src) (d : Dst) (s t : State),
    (exec (.out a) s = .next t → SameRegisters s t ∧ t.stack = s.stack ∧ SameMemory s t ∧ StatusKeptOrFaulted s t ∧
      (t.output = s.output ∨ ∃ c, s.value a = .ok c ∧ t.output = s.output ++ [c]) ∧
      t.lineBuffer = s.lineBuffer ∧ t.pendingInput = s.pendingInput ∧ t.stackCapacity = s.stackCapacity) ∧
    (exec (.in_ d) s = .next t → (∀ r, d ≠ .reg r → t.reg r = s.reg r) ∧ t.stack = s.stack ∧ SameMemory s t ∧ StatusKeptOrFaulted s t ∧
      t.output = s.output ∧ t.stackCapacity = s.stackCapacity)

/-- R20, R26, R44 and R183 over the whole instruction set, for a step: a register other than the fetched instruction's destination never changes; the
stack changes only at push, pop, call, ret; memory only at wmem; the output log only at out; the input only at in; the capacity never. The capacity as a field is
the model's choice (assumption log 3). -/
def Obligations.EachStorageHasItsWriters : Prop :=
  ∀ s t : State, step s = .next t →
    (∀ r, t.reg r ≠ s.reg r → ∃ i, s.fetch = .ok i ∧ i.destination = some (.reg r)) ∧
    (t.stack ≠ s.stack → ∃ a d, s.fetch = .ok (.push a) ∨ s.fetch = .ok (.pop d) ∨ s.fetch = .ok (.call a) ∨ s.fetch = .ok .ret) ∧
    (t.mem ≠ s.mem → ∃ a b, s.fetch = .ok (.wmem a b)) ∧
    (t.output ≠ s.output → ∃ a, s.fetch = .ok (.out a)) ∧
    (t.lineBuffer ≠ s.lineBuffer ∨ t.pendingInput ≠ s.pendingInput → ∃ d, s.fetch = .ok (.in_ d)) ∧
    t.stackCapacity = s.stackCapacity

/-- R24, R85 and R125 over the whole instruction set: when a step leaves the core Running, the pc is at `next`, or the instruction is a jump, a call or
a return and the pc is at an allocated cell below 32768, or the core holds and the pc has not moved. It is never inside the instruction. That a hold answers the same state is the
model's choice (assumption log 6). -/
def Obligations.PcAfterStep : Prop :=
  ∀ (s t : State) (i : Instr), s.status = .running → s.fetch = .ok i → step s = .next t → t.status = .running →
    (t.pc = seqPc s (encode i).length) ∨
    ((∃ a b, i = .jmp a ∨ i = .jt a b ∨ i = .jf a b ∨ i = .call a ∨ i = .ret) ∧ TargetOk s t.pc) ∨
    (s.holding = true ∧ t = s)

/-! ### The I/O channel and the hold -/

/-- R32 and R183: no step reads the output log. Changing the log beforehand changes nothing but the log, and a step only adds at its end. That the log
stands in State is the model's choice (assumption log 9). -/
def Obligations.StepNeverReadsOutputLog : Prop :=
  ∀ (s t : State), step s = .next t →
    ∃ added, t.output = s.output ++ added ∧ added.length ≤ 1 ∧
      ∀ log : List Word, step { s with output := log } = .next { t with output := log ++ added }

/-- `Input()` of R183: the next code of the current line; when the line is used up, the first code of the next delivered line, the rest of which becomes
the current line; the end of input when that comes next; nothing while nothing is delivered. Only the channel's own state changes. That a line
is delivered whole, and that a line without a code is passed over, are the model's choices (assumption log 7). -/
def Obligations.InputTakenInOrder : Prop :=
  ∀ s : State,
    (∀ c codes, s.lineBuffer = c :: codes → s.takeInput = some (.char c, { s with lineBuffer := codes })) ∧
    (∀ c codes rest, s.lineBuffer = [] → s.pendingInput = .line (c :: codes) :: rest →
      s.takeInput = some (.char c, { s with lineBuffer := codes, pendingInput := rest })) ∧
    (∀ rest, s.lineBuffer = [] → s.pendingInput = .endOfInput :: rest →
      s.takeInput = some (.endOfInput, { s with pendingInput := rest })) ∧
    (∀ rest e u, s.lineBuffer = [] → s.pendingInput = .line [] :: rest →
      ({ s with pendingInput := rest } : State).takeInput = some (e, u) → s.takeInput = some (e, u)) ∧
    (s.takeInput = none ↔ s.lineBuffer = [] ∧ ∀ x ∈ s.pendingInput, x = .line [])

/-- R87, R181 and R208: a holding core does not change, and `in` is the only place it waits: a step that changes nothing is a hold or a jump to itself. The answer of
a hold is the model's choice (assumption log 6). -/
def Obligations.HoldChangesNothing : Prop :=
  ∀ s : State, s.status = .running →
    (s.holding = true → step s = .next s) ∧
    (step s = .next s → s.holding = true ∨ ∃ a b, s.fetch = .ok (.jmp a) ∨ s.fetch = .ok (.jt a b) ∨ s.fetch = .ok (.jf a b))

/-- R181 and R211: the host can deliver exactly while the core holds, and exactly an item that holds an event; delivering it lifts the hold and
changes the input alone. The first code of a delivered line goes into the register and the rest of the line stays for the next `in`; the end of
input gives InputEndOfFile. During a run no other action of the host is possible. How a delivery looks, and that a line without codes is
no event, are the model's choices (assumption log 7), as is when a run is in progress (assumption log 18). -/
def Obligations.DeliveredEventLiftsHold : Prop :=
  ∀ s : State,
    (∀ x, (∃ u, s.deliver x = some u) ↔ s.holding = true ∧ x ≠ .line []) ∧
    (∀ x u, s.deliver x = some u → u.holding = false ∧ u = { s with pendingInput := s.pendingInput ++ [x] }) ∧
    (s.holding = true → ∃ d, s.fetch = .ok (.in_ (.reg d)) ∧
      (∀ c codes, c ≤ 32767 → ∃ u t, s.deliver (.line (c :: codes)) = some u ∧ step u = .next t ∧
        t = { s with regs := s.regs.set d (BitVec.ofNat 16 c), pc := seqPc s 2, lineBuffer := codes, pendingInput := [] }) ∧
      (∃ u t, s.deliver .endOfInput = some u ∧ step u = .next t ∧ t.status = .faulted ⟨.inputEndOfFile, s.pc, 0⟩)) ∧
    (∀ (h k : Session) (a : HostAction), h.core = s → h.phase = .inRun → h.act a = some k →
      k.phase = .inRun ∧ ∃ x, a = .deliver x ∧ s.deliver x = some k.core)

/-! ### Laws over several steps -/

/-- R104: `push A`, then `pop rX` with no stack operation between, sets rX to the value of A at the push and leaves the stack as before the push. -/
def Obligations.PushThenPopRestores : Prop :=
  ∀ (s u : State) (a : Src) (d : RegIndex) (v : Word),
    s.value a = .ok v → s.stackFull = false →
    ∃ t, exec (.push a) s = .next t ∧ t.status = s.status ∧
      (u.stack = t.stack → ∃ w, exec (.pop (.reg d)) u = .next w ∧ w.reg d = v ∧ w.stack = s.stack ∧ w.status = u.status)

/-- R164: `call` at an address, then `ret` with no stack operation between, resumes at the instruction after the call's operand, with the stack as
before the call. The cell there must be allocated, or the return faults by R163. -/
def Obligations.CallThenReturnResumes : Prop :=
  ∀ (s u : State) (a : Src) (v : Word),
    s.value a = .ok v → TargetOk s v → s.stackFull = false → s.pc.toNat + 2 < 32768 →
    ∃ t, exec (.call a) s = .next t ∧ t.pc = v ∧
      (u.stack = t.stack → TargetOk u (seqPc s 2) →
        ∃ w, exec .ret u = .next w ∧ w.pc = seqPc s 2 ∧ w.stack = s.stack ∧ w.status = u.status)

/-- R53: a `wmem` into a cell is seen by the very next fetch from it. Whatever the cell held, after the write a core whose pc is at the cell runs by the
new word: it faults on a word that is no opcode, and it halts on the word 0. -/
def Obligations.StoreIntoCodeSeenByNextFetch : Prop :=
  ∀ (s : State) (A B x v : Word), s.Inv → s.status = .running → readResolve s A = .ok x → readResolve s B = .ok v →
    ∃ t, exec (.wmem (Src.ofWord A) (Src.ofWord B)) s = .next t ∧ t.memRead x.toNat = .ok v ∧
      (t.pc = x → (21 < v.toNat → step t = .next (faultState t .invalidOpcode v.toNat)) ∧
        (v = 0 → step t = .next { t with status := .halted, pc := seqPc t 1 }))

/-! ### One rule per instruction -/

/-- R100. -/
def Obligations.HaltRule : Prop :=
  decode [0] = .ok (.halt, []) ∧ FetchFaults 0 0 ∧
  ∀ s : State, ∃ t, exec .halt s = .next t ∧ t = { s with status := .halted, pc := seqPc s 1 } ∧ ∀ u, step t ≠ .next u

/-- R101. -/
def Obligations.SetRule : Prop := UnaryRule .set 1 fun v => v

/-- R102. That a stack deeper than its bound, which no run reaches, counts as full is the model's choice (assumption log 15): R26 raises at the
bound itself. -/
def Obligations.PushRule : Prop :=
  FetchFaults 2 1 ∧ ∀ (s : State) (A : Word),
    decode [2, A] = .ok (.push (Src.ofWord A), []) ∧
    (∀ v, readResolve s A = .ok v →
      (s.stackCapacity = none → exec (.push (Src.ofWord A)) s = .next { s with stack := v :: s.stack, pc := seqPc s 2 }) ∧
      (∀ k, s.stackCapacity = some k → s.stack.length < k →
        exec (.push (Src.ofWord A)) s = .next { s with stack := v :: s.stack, pc := seqPc s 2 }) ∧
      (∀ k, s.stackCapacity = some k → k ≤ s.stack.length → Raises (.push (Src.ofWord A)) s .stackOverflow v.toNat)) ∧
    FaultsS (.push (Src.ofWord A)) s A

/-- R103. -/
def Obligations.PopRule : Prop :=
  FetchFaults 3 1 ∧ ∀ (s : State) (A : Word),
    decode [3, A] = .ok (.pop (Dst.ofWord A), []) ∧
    (∀ d v rest, writeResolve A = .ok d → s.stack = v :: rest →
      exec (.pop (Dst.ofWord A)) s = .next { s with regs := s.regs.set d v, stack := rest, pc := seqPc s 2 }) ∧
    (∀ d, writeResolve A = .ok d → s.stack = [] → Raises (.pop (Dst.ofWord A)) s .stackUnderflow 3) ∧
    FaultsD (.pop (Dst.ofWord A)) s A

/-- R120. -/
def Obligations.EqRule : Prop := BinaryRule .eq 4 fun vb vc => if vb = vc then 1 else 0

/-- R121. -/
def Obligations.GtRule : Prop := BinaryRule .gt 5 fun vb vc => if vb.toNat > vc.toNat then 1 else 0

/-- R122, with the target check of R125. -/
def Obligations.JmpRule : Prop :=
  FetchFaults 6 1 ∧ ∀ (s : State) (A : Word),
    decode [6, A] = .ok (.jmp (Src.ofWord A), []) ∧
    (∀ t, readResolve s A = .ok t →
      (TargetOk s t → exec (.jmp (Src.ofWord A)) s = .next { s with pc := t }) ∧
      (¬ TargetOk s t → Raises (.jmp (Src.ofWord A)) s .addressingError t.toNat)) ∧
    FaultsS (.jmp (Src.ofWord A)) s A

/-- R123. -/
def Obligations.JtRule : Prop := BranchRule .jt 7 fun v => v.toNat ≠ 0

/-- R124. -/
def Obligations.JfRule : Prop := BranchRule .jf 8 fun v => v.toNat = 0

/-- R141. -/
def Obligations.AddRule : Prop := BinaryRule .add 9 fun vb vc => BitVec.ofNat 16 ((vb.toNat + vc.toNat) % 32768)

/-- R142. -/
def Obligations.MultRule : Prop := BinaryRule .mult 10 fun vb vc => BitVec.ofNat 16 ((vb.toNat * vc.toNat) % 32768)

/-- R143: with a divisor that is not 0 the remainder, below the divisor; with 0, ArithmeticError with the divisor's operand word. -/
def Obligations.ModRule : Prop :=
  FetchFaults 11 3 ∧ ∀ (s : State) (A B C : Word),
    decode [11, A, B, C] = .ok (.mod (Dst.ofWord A) (Src.ofWord B) (Src.ofWord C), []) ∧
    (∀ d vb vc, writeResolve A = .ok d → readResolve s B = .ok vb → readResolve s C = .ok vc →
      (vc.toNat ≠ 0 → exec (.mod (Dst.ofWord A) (Src.ofWord B) (Src.ofWord C)) s =
        .next { s with regs := s.regs.set d (BitVec.ofNat 16 (vb.toNat % vc.toNat)), pc := seqPc s 4 }) ∧
      (vc.toNat = 0 → Raises (.mod (Dst.ofWord A) (Src.ofWord B) (Src.ofWord C)) s .arithmeticError C.toNat)) ∧
    FaultsDSS (.mod (Dst.ofWord A) (Src.ofWord B) (Src.ofWord C)) s A B C

/-- R144. -/
def Obligations.AndRule : Prop := BinaryRule .and 12 fun vb vc => vb &&& vc

/-- R145. -/
def Obligations.OrRule : Prop := BinaryRule .or 13 fun vb vc => vb ||| vc

/-- R146: the 15-bit complement, 32767 - v; for an operand in [0, 32767] it is the exclusive or with 0x7FFF, and
bit 15 stays 0. That an operand above 32767, which no run reaches, gives 0 is the model's choice (assumption log 15): R8 uses the
subtraction only where it is not negative. -/
def Obligations.NotRule : Prop :=
  (UnaryRule .not 14 fun v => BitVec.ofNat 16 (32767 - v.toNat)) ∧
  ∀ v : Word, v.toNat ≤ 32767 →
    BitVec.ofNat 16 (32767 - v.toNat) = v ^^^ 0x7FFF ∧ (BitVec.ofNat 16 (32767 - v.toNat)).toNat ≤ 32767

/-- R147: the results of `add`, `mult` and `not` as numbers, and every register in [0, 32767] after any ALU instruction that completes. -/
def Obligations.AluClosure : Prop :=
  ∀ (s : State) (a : Dst) (d : RegIndex) (B C vb vc : Word), s.Inv → readResolve s B = .ok vb → readResolve s C = .ok vc →
    (∃ t, exec (.add (.reg d) (Src.ofWord B) (Src.ofWord C)) s = .next t ∧ (t.reg d).toNat = (vb.toNat + vc.toNat) % 32768) ∧
    (∃ t, exec (.mult (.reg d) (Src.ofWord B) (Src.ofWord C)) s = .next t ∧ (t.reg d).toNat = (vb.toNat * vc.toNat) % 32768) ∧
    (∃ t, exec (.not (.reg d) (Src.ofWord B)) s = .next t ∧ (t.reg d).toNat = 32767 - vb.toNat) ∧
    ∀ (i : Instr) (b c : Src) (t : State), i ∈ [Instr.add a b c, .mult a b c, .mod a b c, .and a b c, .or a b c, .not a b] →
      exec i s = .next t → i.wellFormed = true → ∀ r, (t.reg r).toNat ≤ 32767

/-- R160: the cell's word moved whole; AddressingError for a cell that cannot be read, then ValueOutOfRange for a word above 32767. -/
def Obligations.RmemRule : Prop :=
  FetchFaults 15 2 ∧ ∀ (s : State) (A B : Word),
    decode [15, A, B] = .ok (.rmem (Dst.ofWord A) (Src.ofWord B), []) ∧
    (∀ d t, writeResolve A = .ok d → readResolve s B = .ok t →
      (∀ w, t.toNat < 32768 → s.mem.read t.toNat = some w → w.toNat ≤ 32767 →
        exec (.rmem (Dst.ofWord A) (Src.ofWord B)) s = .next { s with regs := s.regs.set d w, pc := seqPc s 3 }) ∧
      (∀ w, t.toNat < 32768 → s.mem.read t.toNat = some w → 32767 < w.toNat →
        Raises (.rmem (Dst.ofWord A) (Src.ofWord B)) s .valueOutOfRange w.toNat) ∧
      (32768 ≤ t.toNat ∨ s.mem.read t.toNat = none →
        Raises (.rmem (Dst.ofWord A) (Src.ofWord B)) s .addressingError t.toNat)) ∧
    FaultsDS (.rmem (Dst.ofWord A) (Src.ofWord B)) s A B

/-- R161: cell t becomes v and allocated; in every state that meets the invariant the address is below 32768, so `wmem` raises no fault but the
common ones, and the value written is at most 32767. An address from 32768 up, which no run reaches, takes the branch R43 writes for it. -/
def Obligations.WmemRule : Prop :=
  FetchFaults 16 2 ∧ ∀ (s : State) (A B : Word),
    decode [16, A, B] = .ok (.wmem (Src.ofWord A) (Src.ofWord B), []) ∧
    (∀ t v, readResolve s A = .ok t → readResolve s B = .ok v →
      (t.toNat < 32768 →
        ∃ u, exec (.wmem (Src.ofWord A) (Src.ofWord B)) s = .next u ∧ u = { s with mem := s.mem.write t.toNat v, pc := seqPc s 3 } ∧
          u.mem.read t.toNat = some v ∧ ∀ a, a ≠ t.toNat → u.mem.read a = s.mem.read a) ∧
      (32768 ≤ t.toNat → Raises (.wmem (Src.ofWord A) (Src.ofWord B)) s .addressingError t.toNat) ∧
      (s.Inv → t.toNat < 32768 ∧ v.toNat ≤ 32767)) ∧
    FaultsSS (.wmem (Src.ofWord A) (Src.ofWord B)) s A B

/-- R162: the return address check, then the target check, then the push. That a stack deeper than its bound, which no run reaches, counts as
full is the model's choice (assumption log 15): R26 raises at the bound itself. -/
def Obligations.CallRule : Prop :=
  FetchFaults 17 1 ∧ ∀ (s : State) (A : Word),
    decode [17, A] = .ok (.call (Src.ofWord A), []) ∧
    (∀ t, readResolve s A = .ok t →
      (32768 ≤ s.pc.toNat + 2 → Raises (.call (Src.ofWord A)) s .addressingError (s.pc.toNat + 2)) ∧
      (s.pc.toNat + 2 < 32768 → ¬ TargetOk s t → Raises (.call (Src.ofWord A)) s .addressingError t.toNat) ∧
      (s.pc.toNat + 2 < 32768 → TargetOk s t →
        (s.stackCapacity = none → exec (.call (Src.ofWord A)) s = .next { s with stack := seqPc s 2 :: s.stack, pc := t }) ∧
        (∀ k, s.stackCapacity = some k → s.stack.length < k →
          exec (.call (Src.ofWord A)) s = .next { s with stack := seqPc s 2 :: s.stack, pc := t }) ∧
        (∀ k, s.stackCapacity = some k → k ≤ s.stack.length →
          Raises (.call (Src.ofWord A)) s .stackOverflow (s.pc.toNat + 2)))) ∧
    FaultsS (.call (Src.ofWord A)) s A

/-- R163: the emptiness check, then the target check; on a fault nothing is popped. -/
def Obligations.RetRule : Prop :=
  decode [18] = .ok (.ret, []) ∧ FetchFaults 18 0 ∧
  ∀ s : State,
    (s.stack = [] → Raises .ret s .stackUnderflow 18) ∧
    (∀ t rest, s.stack = t :: rest → TargetOk s t → exec .ret s = .next { s with stack := rest, pc := t }) ∧
    (∀ t rest, s.stack = t :: rest → ¬ TargetOk s t → Raises .ret s .addressingError t.toNat)

/-- R180. -/
def Obligations.OutRule : Prop :=
  FetchFaults 19 1 ∧ ∀ (s : State) (A : Word),
    decode [19, A] = .ok (.out (Src.ofWord A), []) ∧
    (∀ c, readResolve s A = .ok c → exec (.out (Src.ofWord A)) s = .next { s with output := s.output ++ [c], pc := seqPc s 2 }) ∧
    FaultsS (.out (Src.ofWord A)) s A

/-- R181: the destination is resolved before any input is taken; a code goes into the register; a code above 32767 and the end of input fault, and
the event stays consumed. With no event the core holds: that the model answers the same state there is its own choice (assumption log 6). -/
def Obligations.InRule : Prop :=
  FetchFaults 20 1 ∧ ∀ (s : State) (A : Word),
    decode [20, A] = .ok (.in_ (Dst.ofWord A), []) ∧
    (∀ d, writeResolve A = .ok d →
      (∀ c u, s.takeInput = some (.char c, u) → c ≤ 32767 → exec (.in_ (Dst.ofWord A)) s =
        .next { u with regs := s.regs.set d (BitVec.ofNat 16 c), pc := seqPc s 2 }) ∧
      (∀ c u, s.takeInput = some (.char c, u) → 32767 < c → exec (.in_ (Dst.ofWord A)) s = .next (faultState u .valueOutOfRange c)) ∧
      (∀ u, s.takeInput = some (.endOfInput, u) → exec (.in_ (Dst.ofWord A)) s = .next (faultState u .inputEndOfFile 0)) ∧
      (s.takeInput = none → exec (.in_ (Dst.ofWord A)) s = .next s)) ∧
    FaultsD (.in_ (Dst.ofWord A)) s A

/-- R182. -/
def Obligations.NoopRule : Prop :=
  decode [21] = .ok (.noop, []) ∧ FetchFaults 21 0 ∧ ∀ s : State, exec .noop s = .next { s with pc := seqPc s 1 }
end

