-- ==== Sys2Proof/Laws/Decode.lean ====
section
/-! SUPPORT. The decoder's and encoder's parts: each operand and each opcode goes to its word and back. -/

namespace Sys2Proof

theorem regWord_toNat (r : RegIndex) : (regWord r).toNat = 32768 + r.val := by
  have := r.isLt
  simp only [regWord, Config.regBase, BitVec.toNat_ofNat]
  omega

/-- R64's classes of a source operand word, in the spec's numbers. -/
theorem Src.ofWord_eq (w : Word) : Src.ofWord w =
    if w.toNat ≤ 32767 then .lit w
    else if w.toNat ≤ 32775 then .reg (Fin.ofNat 8 (w.toNat - 32768)) else .outOfRange w := rfl

/-- R66's classes of a destination operand word, in the spec's numbers. -/
theorem Dst.ofWord_eq (w : Word) : Dst.ofWord w =
    if 32768 ≤ w.toNat ∧ w.toNat ≤ 32775 then .reg (Fin.ofNat 8 (w.toNat - 32768)) else .notRegister w := rfl

@[simp] theorem Src.wf_lit (v : Word) : (Src.lit v).wf = true ↔ v.toNat ≤ 32767 := decide_eq_true_iff

@[simp] theorem Src.wf_reg (r : RegIndex) : (Src.reg r).wf = true := rfl

@[simp] theorem Src.wf_outOfRange (w : Word) : (Src.outOfRange w).wf = true ↔ 32775 < w.toNat := decide_eq_true_iff

@[simp] theorem Dst.wf_reg (r : RegIndex) : (Dst.reg r).wf = true := rfl

@[simp] theorem Dst.wf_notRegister (w : Word) :
    (Dst.notRegister w).wf = true ↔ w.toNat < 32768 ∨ 32775 < w.toNat := decide_eq_true_iff

theorem Src.ofWord_regWord (r : RegIndex) : Src.ofWord (regWord r) = .reg r := by
  fin_cases r <;> rfl

theorem Dst.ofWord_regWord (r : RegIndex) : Dst.ofWord (regWord r) = .reg r := by
  fin_cases r <;> rfl

/-- R64: a well-formed source operand is the class of its own word. -/
theorem Src.ofWord_word {x : Src} (h : x.wf = true) : Src.ofWord x.word = x := by
  cases x with
  | lit v => exact (Src.ofWord_eq v).trans (if_pos ((Src.wf_lit v).1 h))
  | reg r => exact Src.ofWord_regWord r
  | outOfRange w =>
    have h := (Src.wf_outOfRange w).1 h
    exact (Src.ofWord_eq w).trans (by rw [if_neg (by omega), if_neg (by omega)])

/-- R66: a well-formed destination operand is the class of its own word. -/
theorem Dst.ofWord_word {x : Dst} (h : x.wf = true) : Dst.ofWord x.word = x := by
  cases x with
  | reg r => exact Dst.ofWord_regWord r
  | notRegister w =>
    have h := (Dst.wf_notRegister w).1 h
    exact (Dst.ofWord_eq w).trans (if_neg (by omega))

theorem regWord_ofNat {w : Word} (h : 32768 ≤ w.toNat) (h' : w.toNat ≤ 32775) :
    regWord (Fin.ofNat 8 (w.toNat - 32768)) = w := by
  apply BitVec.eq_of_toNat_eq
  rw [regWord_toNat]
  simp only [Fin.ofNat]
  omega

/-- Every word is the word of its source class. -/
theorem Src.word_ofWord (w : Word) : (Src.ofWord w).word = w := by
  rw [Src.ofWord_eq]
  split
  · rfl
  · split
    · exact regWord_ofNat (by omega) ‹_›
    · rfl

/-- Every word is the word of its destination class. -/
theorem Dst.word_ofWord (w : Word) : (Dst.ofWord w).word = w := by
  rw [Dst.ofWord_eq]
  split
  · exact regWord_ofNat (by omega) (by omega)
  · rfl

theorem Src.wf_ofWord (w : Word) : (Src.ofWord w).wf = true := by
  rw [Src.ofWord_eq]
  split
  · exact (Src.wf_lit w).2 ‹_›
  · split
    · rfl
    · exact (Src.wf_outOfRange w).2 (by omega)

theorem Dst.wf_ofWord (w : Word) : (Dst.ofWord w).wf = true := by
  rw [Dst.ofWord_eq]
  split
  · rfl
  · exact (Dst.wf_notRegister w).2 (by omega)

theorem Op.word_toNat (op : Op) : op.word.toNat = op.number := by cases op <;> rfl

theorem Op.number_le (op : Op) : op.number ≤ 21 := by cases op <;> decide

/-- An operation is the one its opcode word selects. -/
theorem Op.ofWord_word (op : Op) : Op.ofWord op.word = some op := by cases op <;> rfl

/-- A word selects an operation only if it is its opcode word. -/
theorem Op.word_of_ofWord {w : Word} {op : Op} (h : Op.ofWord w = some op) : w = op.word := by
  have := List.find?_some h
  simpa using (beq_iff_eq.1 this).symm

theorem Op.mem_all (op : Op) : op ∈ Op.all := by cases op <;> decide

/-- R68: a word above 21 selects no operation. -/
theorem Op.ofWord_eq_none {w : Word} (h : 21 < w.toNat) : Op.ofWord w = none := by
  cases hw : Op.ofWord w with
  | none => rfl
  | some op =>
    have := Op.word_of_ofWord hw
    have := op.number_le
    subst_vars
    rw [Op.word_toNat] at h
    omega

/-- R63: every word up to 21 selects an operation. -/
theorem Op.ofWord_isSome {w : Word} (h : w.toNat ≤ 21) : ∃ op, Op.ofWord w = some op ∧ op.number = w.toNat := by
  have key : ∀ n ≤ 21, ∃ op : Op, op.number = n := by
    intro n hn
    interval_cases n
    exacts [⟨.halt, rfl⟩, ⟨.set, rfl⟩, ⟨.push, rfl⟩, ⟨.pop, rfl⟩, ⟨.eq, rfl⟩, ⟨.gt, rfl⟩, ⟨.jmp, rfl⟩, ⟨.jt, rfl⟩,
      ⟨.jf, rfl⟩, ⟨.add, rfl⟩, ⟨.mult, rfl⟩, ⟨.mod, rfl⟩, ⟨.and, rfl⟩, ⟨.or, rfl⟩, ⟨.not, rfl⟩, ⟨.rmem, rfl⟩,
      ⟨.wmem, rfl⟩, ⟨.call, rfl⟩, ⟨.ret, rfl⟩, ⟨.out, rfl⟩, ⟨.in_, rfl⟩, ⟨.noop, rfl⟩]
  obtain ⟨op, hop⟩ := key w.toNat h
  have hw : op.word = w := BitVec.eq_of_toNat_eq (by rw [Op.word_toNat, hop])
  exact ⟨op, hw ▸ Op.ofWord_word op, hop⟩

/-- Decoding after a known opcode word is decoding the operand words. -/
theorem decode_word (op : Op) (rest : List Word) : decode (op.word :: rest) = op.operands rest := by
  simp [decode, Op.ofWord_word]

end Sys2Proof
end

