-- ==== Sys2Proof/Laws/Memory.lean ====
section
/-! SUPPORT. The Word Store's laws: what a read answers after a write, that every memory operation keeps the canonical form, and that
the canonical form is unique. -/

namespace Sys2Proof.Machine

@[simp] theorem Memory.read_nil (a : Nat) : Memory.read [] a = none := rfl

@[simp] theorem Memory.read_cons (b : Nat) (w : Word) (m : Memory) (a : Nat) :
    Memory.read ((b, w) :: m) a = if a = b then some w else Memory.read m a := rfl

/-- R43: a write is read back, and leaves every other address alone. -/
theorem Memory.read_write (m : Memory) (a : Nat) (v : Word) (b : Nat) :
    (m.write a v).read b = if b = a then some v else m.read b := by
  induction m with
  | nil => simp [Memory.write]
  | cons c m ih =>
    obtain ⟨c, w⟩ := c
    unfold Memory.write
    split
    · simp
    · split
      · subst_vars
        by_cases h : b = c <;> simp [h]
      · simp only [Memory.read_cons, ih]
        by_cases h : b = c <;> by_cases h' : b = a <;> simp_all

theorem Memory.wfFrom_cons (lo a : Nat) (w : Word) (m : Memory) :
    Memory.wfFrom lo ((a, w) :: m) = true ↔ lo ≤ a ∧ a < Config.memWords ∧ Memory.wfFrom (a + 1) m = true := by
  simp [Memory.wfFrom, and_assoc]

theorem Memory.wfFrom_write {m : Memory} {lo a : Nat} (v : Word) (hm : Memory.wfFrom lo m = true) (hlo : lo ≤ a)
    (ha : a < Config.memWords) : Memory.wfFrom lo (m.write a v) = true := by
  induction m generalizing lo with
  | nil => simp [Memory.write, Memory.wfFrom, hlo, ha]
  | cons c m ih =>
    obtain ⟨b, w⟩ := c
    obtain ⟨hb, hbm, hrest⟩ := (Memory.wfFrom_cons ..).1 hm
    unfold Memory.write
    split
    · exact (Memory.wfFrom_cons ..).2 ⟨hlo, ha, (Memory.wfFrom_cons ..).2 ⟨by omega, hbm, hrest⟩⟩
    · split
      · exact (Memory.wfFrom_cons ..).2 ⟨hlo, ha, by simp_all⟩
      · exact (Memory.wfFrom_cons ..).2 ⟨hb, hbm, ih hrest (by omega)⟩

/-- A write below `MEM_WORDS` keeps the canonical form. -/
theorem Memory.wf_write {m : Memory} {a : Nat} (v : Word) (hm : m.wf = true) (ha : a < Config.memWords) :
    (m.write a v).wf = true := Memory.wfFrom_write v hm (Nat.zero_le a) ha

/-- A canonical memory lists no address below its bound. -/
theorem Memory.read_eq_none_of_lt {m : Memory} {lo a : Nat} (hm : Memory.wfFrom lo m = true) (ha : a < lo) :
    m.read a = none := by
  induction m generalizing lo with
  | nil => rfl
  | cons c m ih =>
    obtain ⟨b, w⟩ := c
    obtain ⟨hb, -, hrest⟩ := (Memory.wfFrom_cons ..).1 hm
    simp [show a ≠ b by omega, ih hrest (by omega)]

/-- A canonical memory allocates no cell outside the Word Store (R40). -/
theorem Memory.read_eq_none_of_ge {m : Memory} {lo a : Nat} (hm : Memory.wfFrom lo m = true) (ha : Config.memWords ≤ a) :
    m.read a = none := by
  induction m generalizing lo with
  | nil => rfl
  | cons c m ih =>
    obtain ⟨b, w⟩ := c
    obtain ⟨-, hb, hrest⟩ := (Memory.wfFrom_cons ..).1 hm
    simp [show a ≠ b by omega, ih hrest]

theorem Memory.wfFrom_ofImage (image : List Word) (a : Nat) (h : a + image.length ≤ Config.memWords) :
    Memory.wfFrom a (Memory.ofImage a image) = true := by
  induction image generalizing a with
  | nil => rfl
  | cons w image ih =>
    simp only [List.length_cons] at h
    exact (Memory.wfFrom_cons ..).2 ⟨le_refl a, by omega, ih (a + 1) (by omega)⟩

/-- A loaded image of at most `MEM_WORDS` words is in canonical form. -/
theorem Memory.wf_ofImage (image : List Word) (h : image.length ≤ Config.memWords) :
    (Memory.ofImage 0 image).wf = true := Memory.wfFrom_ofImage image 0 (by omega)

/-- R231: the image's words stand at ascending addresses. -/
theorem Memory.read_ofImage (image : List Word) (a b : Nat) :
    (Memory.ofImage a image).read b = if b < a then none else image[b - a]? := by
  induction image generalizing a with
  | nil => simp [Memory.ofImage]
  | cons w image ih =>
    simp only [Memory.ofImage, Memory.read_cons, ih]
    by_cases h : b = a
    · simp [h]
    · by_cases h' : b < a
      · simp [h, h', show b < a + 1 by omega]
      · simp [h, h', show ¬ b < a + 1 by omega, show b - a = (b - (a + 1)) + 1 by omega]

theorem Memory.wf_writeWords (ws : List Word) {m : Memory} (a : Nat) (hm : m.wf = true) :
    (m.writeWords a ws).wf = true := by
  induction ws generalizing m a with
  | nil => exact hm
  | cons w ws ih =>
    refine ih (a + 1) ?_
    split
    · exact Memory.wf_write w hm ‹_›
    · exact hm

/-- Words written from `a` up, all below `MEM_WORDS`, are read back, and every other address is left alone. -/
theorem Memory.read_writeWords (ws : List Word) (m : Memory) (a b : Nat) (h : a + ws.length ≤ Config.memWords) :
    (m.writeWords a ws).read b = if a ≤ b ∧ b < a + ws.length then ws[b - a]? else m.read b := by
  induction ws generalizing m a with
  | nil => simp [Memory.writeWords, show ¬ (a ≤ b ∧ b < a) by omega]
  | cons w ws ih =>
    simp only [List.length_cons] at h
    rw [Memory.writeWords, if_pos (by omega), ih _ _ (by omega), Memory.read_write]
    simp only [List.length_cons]
    by_cases hb : b = a
    · simp [hb]
    · by_cases hc : a + 1 ≤ b ∧ b < a + 1 + ws.length
      · rw [if_pos hc, if_pos (by omega), show b - a = (b - (a + 1)) + 1 by omega, List.getElem?_cons_succ]
      · rw [if_neg hc, if_neg hb, if_neg (by omega)]

end Sys2Proof.Machine
end

