-- ==== Sys2Proof/Laws/State.lean ====
section
/-! SUPPORT. What each update of the state does to each field, so that no proof unfolds an update again, and the register bank's laws. -/

namespace Sys2Proof.Machine

@[simp] theorem State.setReg_regs (s : State) (r : RegIndex) (v : Word) : (s.setReg r v).regs = s.regs.set r v := rfl
@[simp] theorem State.setReg_pc (s : State) (r : RegIndex) (v : Word) : (s.setReg r v).pc = s.pc := rfl
@[simp] theorem State.setReg_stack (s : State) (r : RegIndex) (v : Word) : (s.setReg r v).stack = s.stack := rfl
@[simp] theorem State.setReg_mem (s : State) (r : RegIndex) (v : Word) : (s.setReg r v).mem = s.mem := rfl
@[simp] theorem State.setReg_status (s : State) (r : RegIndex) (v : Word) : (s.setReg r v).status = s.status := rfl
@[simp] theorem State.setReg_stackCapacity (s : State) (r : RegIndex) (v : Word) : (s.setReg r v).stackCapacity = s.stackCapacity := rfl
@[simp] theorem State.setReg_output (s : State) (r : RegIndex) (v : Word) : (s.setReg r v).output = s.output := rfl
@[simp] theorem State.setReg_lineBuffer (s : State) (r : RegIndex) (v : Word) : (s.setReg r v).lineBuffer = s.lineBuffer := rfl
@[simp] theorem State.setReg_pendingInput (s : State) (r : RegIndex) (v : Word) : (s.setReg r v).pendingInput = s.pendingInput := rfl

@[simp] theorem State.advance_regs (s : State) (n : Nat) : (s.advance n).regs = s.regs := rfl
@[simp] theorem State.advance_pc (s : State) (n : Nat) : (s.advance n).pc = BitVec.ofNat 16 (s.pc.toNat + n) := rfl
@[simp] theorem State.advance_stack (s : State) (n : Nat) : (s.advance n).stack = s.stack := rfl
@[simp] theorem State.advance_mem (s : State) (n : Nat) : (s.advance n).mem = s.mem := rfl
@[simp] theorem State.advance_status (s : State) (n : Nat) : (s.advance n).status = s.status := rfl
@[simp] theorem State.advance_stackCapacity (s : State) (n : Nat) : (s.advance n).stackCapacity = s.stackCapacity := rfl
@[simp] theorem State.advance_output (s : State) (n : Nat) : (s.advance n).output = s.output := rfl
@[simp] theorem State.advance_lineBuffer (s : State) (n : Nat) : (s.advance n).lineBuffer = s.lineBuffer := rfl
@[simp] theorem State.advance_pendingInput (s : State) (n : Nat) : (s.advance n).pendingInput = s.pendingInput := rfl

@[simp] theorem State.raise_regs (s : State) (e : Trap) : (s.raise e).regs = s.regs := rfl
@[simp] theorem State.raise_pc (s : State) (e : Trap) : (s.raise e).pc = s.pc := rfl
@[simp] theorem State.raise_stack (s : State) (e : Trap) : (s.raise e).stack = s.stack := rfl
@[simp] theorem State.raise_mem (s : State) (e : Trap) : (s.raise e).mem = s.mem := rfl
@[simp] theorem State.raise_status (s : State) (e : Trap) : (s.raise e).status = .faulted ⟨e.kind, s.pc, e.info⟩ := rfl
@[simp] theorem State.raise_stackCapacity (s : State) (e : Trap) : (s.raise e).stackCapacity = s.stackCapacity := rfl
@[simp] theorem State.raise_output (s : State) (e : Trap) : (s.raise e).output = s.output := rfl
@[simp] theorem State.raise_lineBuffer (s : State) (e : Trap) : (s.raise e).lineBuffer = s.lineBuffer := rfl
@[simp] theorem State.raise_pendingInput (s : State) (e : Trap) : (s.raise e).pendingInput = s.pendingInput := rfl

@[simp] theorem State.emit_regs (s : State) (c : Word) : (s.emit c).regs = s.regs := rfl
@[simp] theorem State.emit_pc (s : State) (c : Word) : (s.emit c).pc = s.pc := rfl
@[simp] theorem State.emit_stack (s : State) (c : Word) : (s.emit c).stack = s.stack := rfl
@[simp] theorem State.emit_mem (s : State) (c : Word) : (s.emit c).mem = s.mem := rfl
@[simp] theorem State.emit_status (s : State) (c : Word) : (s.emit c).status = s.status := rfl
@[simp] theorem State.emit_stackCapacity (s : State) (c : Word) : (s.emit c).stackCapacity = s.stackCapacity := rfl
@[simp] theorem State.emit_output (s : State) (c : Word) : (s.emit c).output = s.output ++ [c] := rfl
@[simp] theorem State.emit_lineBuffer (s : State) (c : Word) : (s.emit c).lineBuffer = s.lineBuffer := rfl
@[simp] theorem State.emit_pendingInput (s : State) (c : Word) : (s.emit c).pendingInput = s.pendingInput := rfl

@[simp] theorem State.supply_regs (s : State) (x : InputItem) : (s.supply x).regs = s.regs := rfl
@[simp] theorem State.supply_pc (s : State) (x : InputItem) : (s.supply x).pc = s.pc := rfl
@[simp] theorem State.supply_stack (s : State) (x : InputItem) : (s.supply x).stack = s.stack := rfl
@[simp] theorem State.supply_mem (s : State) (x : InputItem) : (s.supply x).mem = s.mem := rfl
@[simp] theorem State.supply_status (s : State) (x : InputItem) : (s.supply x).status = s.status := rfl
@[simp] theorem State.supply_stackCapacity (s : State) (x : InputItem) : (s.supply x).stackCapacity = s.stackCapacity := rfl
@[simp] theorem State.supply_output (s : State) (x : InputItem) : (s.supply x).output = s.output := rfl
@[simp] theorem State.supply_lineBuffer (s : State) (x : InputItem) : (s.supply x).lineBuffer = s.lineBuffer := rfl
@[simp] theorem State.supply_pendingInput (s : State) (x : InputItem) : (s.supply x).pendingInput = s.pendingInput ++ [x] := rfl

/-- Reading a register after a write: R20. -/
@[simp] theorem RegBank.get_set (b : RegBank) (d r : RegIndex) (v : Word) :
    (b.set d v).get r = if r = d then v else b.get r := by
  fin_cases d <;> fin_cases r <;> rfl

@[simp] theorem State.reg_setReg (s : State) (d r : RegIndex) (v : Word) :
    (s.setReg d v).reg r = if r = d then v else s.reg r := RegBank.get_set ..

@[simp] theorem State.reg_advance (s : State) (n : Nat) (r : RegIndex) : (s.advance n).reg r = s.reg r := rfl

@[simp] theorem State.reg_raise (s : State) (e : Trap) (r : RegIndex) : (s.raise e).reg r = s.reg r := rfl

@[simp] theorem State.reg_emit (s : State) (c : Word) (r : RegIndex) : (s.emit c).reg r = s.reg r := rfl

/-- The range check of a list, word by word. -/
theorem wordsInRange_iff {ws : List Word} : wordsInRange ws = true ↔ ∀ v ∈ ws, v.toNat ≤ 32767 := by
  simp [wordsInRange]

@[simp] theorem wordsInRange_nil : wordsInRange [] = true := rfl

theorem wordsInRange_cons {v : Word} {ws : List Word} :
    wordsInRange (v :: ws) = true ↔ v.toNat ≤ 32767 ∧ wordsInRange ws = true := by
  simp [wordsInRange]

theorem wordsInRange_append {v : Word} {ws : List Word} :
    wordsInRange (ws ++ [v]) = true ↔ wordsInRange ws = true ∧ v.toNat ≤ 32767 := by
  simp [wordsInRange]

@[simp] theorem State.commit_ok (s t : State) : s.commit (.ok t) = .next t := rfl

@[simp] theorem State.commit_error (s : State) (e : Trap) : s.commit (.error e) = .next (s.raise e) := rfl

/-- Ending an instruction always answers a next state: the rule's, or fault entry. -/
theorem State.commit_next {s t : State} {r : Except Trap State} (h : s.commit r = .next t) :
    r = .ok t ∨ ∃ e, r = .error e ∧ t = s.raise e := by
  cases r with
  | ok u => exact .inl (by simpa using h)
  | error e => exact .inr ⟨e, rfl, by simpa using h.symm⟩

/-- A sequence of two computations that succeeds, taken apart. -/
theorem bind_eq_ok {α β : Type} {x : Except Trap α} {f : α → Except Trap β} {b : β} :
    (x >>= f) = .ok b ↔ ∃ a, x = .ok a ∧ f a = .ok b := by
  cases x <;> simp [bind, Except.bind]

/-- A sequence of two computations that fails, taken apart. -/
theorem bind_eq_error {α β : Type} {x : Except Trap α} {f : α → Except Trap β} {e : Trap} :
    (x >>= f) = .error e ↔ x = .error e ∨ ∃ a, x = .ok a ∧ f a = .error e := by
  cases x <;> simp [bind, Except.bind]

@[simp] theorem ok_bind {α β : Type} (a : α) (f : α → Except Trap β) : (Except.ok a >>= f) = f a := rfl

@[simp] theorem error_bind {α β : Type} (e : Trap) (f : α → Except Trap β) :
    ((Except.error e : Except Trap α) >>= f) = .error e := rfl

@[simp] theorem pure_eq_ok {α : Type} (a : α) : (pure a : Except Trap α) = .ok a := rfl

end Sys2Proof.Machine
end

