-- ==== Sys2Proof/Laws/Ops.lean ====
section
/-! SUPPORT. What each shared operation can answer, said once: when it succeeds and with what, when it faults and how. -/

namespace Sys2Proof.Machine

/-! ### Operand resolution -/

@[simp] theorem State.value_lit (s : State) (v : Word) : s.value (.lit v) = .ok v := rfl

@[simp] theorem State.value_reg (s : State) (r : RegIndex) : s.value (.reg r) = .ok (s.reg r) := rfl

@[simp] theorem State.value_outOfRange (s : State) (w : Word) :
    s.value (.outOfRange w) = .error ⟨.operandOutOfRange, w.toNat⟩ := rfl

@[simp] theorem destIndex_reg (r : RegIndex) : destIndex (.reg r) = .ok r := rfl

@[simp] theorem destIndex_notRegister (w : Word) :
    destIndex (.notRegister w) = .error ⟨.invalidRegisterIndex, w.toNat⟩ := rfl

/-- Read-resolution fails only on an operand word that is out of range (R65). -/
theorem State.value_eq_error {s : State} {x : Src} {e : Trap} :
    s.value x = .error e ↔ ∃ w, x = .outOfRange w ∧ e = ⟨.operandOutOfRange, w.toNat⟩ := by
  cases x <;> simp [eq_comm]

/-- Write-resolution succeeds exactly on a register reference (R66). -/
theorem destIndex_eq_ok {a : Dst} {d : RegIndex} : destIndex a = .ok d ↔ a = .reg d := by
  cases a <;> simp

/-- Write-resolution fails exactly on a word that names no register (R66). -/
theorem destIndex_eq_error {a : Dst} {e : Trap} :
    destIndex a = .error e ↔ ∃ w, a = .notRegister w ∧ e = ⟨.invalidRegisterIndex, w.toNat⟩ := by
  cases a <;> simp [eq_comm]

/-- R65 in the spec's numbers. -/
theorem State.value_ofWord (s : State) (w : Word) : s.value (Src.ofWord w) =
    if w.toNat ≤ 32767 then .ok w
    else if w.toNat ≤ 32775 then .ok (s.reg (Fin.ofNat 8 (w.toNat - 32768)))
    else .error ⟨.operandOutOfRange, w.toNat⟩ := by
  rw [Src.ofWord_eq]
  split
  · rfl
  · split <;> rfl

/-- R66 in the spec's numbers. -/
theorem destIndex_ofWord (w : Word) : destIndex (Dst.ofWord w) =
    if 32768 ≤ w.toNat ∧ w.toNat ≤ 32775 then .ok (Fin.ofNat 8 (w.toNat - 32768))
    else .error ⟨.invalidRegisterIndex, w.toNat⟩ := by
  rw [Dst.ofWord_eq]
  split <;> rfl

/-! ### The Word Store -/

theorem State.memRead_eq_ok {s : State} {a : Nat} {w : Word} :
    s.memRead a = .ok w ↔ a < 32768 ∧ s.mem.read a = some w := by
  simp only [State.memRead, Config.memWords]
  split
  · exact ⟨fun h => by simp at h, fun h => absurd h.1 (by omega)⟩
  · have : a < 32768 := by omega
    cases s.mem.read a <;> simp [this]

theorem State.memRead_eq_error {s : State} {a : Nat} {e : Trap} :
    s.memRead a = .error e ↔ (32768 ≤ a ∨ s.mem.read a = none) ∧ e = ⟨.addressingError, a⟩ := by
  simp only [State.memRead, Config.memWords]
  split
  · simp [show 32768 ≤ a by omega, eq_comm]
  · have : ¬ 32768 ≤ a := by omega
    cases s.mem.read a <;> simp [this, eq_comm]

theorem State.memWrite_eq_ok {s t : State} {a : Nat} {v : Word} :
    s.memWrite a v = .ok t ↔ a < 32768 ∧ t = { s with mem := s.mem.write a v } := by
  simp only [State.memWrite, Config.memWords]
  split
  · exact ⟨fun h => by simp at h, fun h => absurd h.1 (by omega)⟩
  · simp [show a < 32768 by omega, eq_comm]

theorem State.memWrite_eq_error {s : State} {a : Nat} {v : Word} {e : Trap} :
    s.memWrite a v = .error e ↔ 32768 ≤ a ∧ e = ⟨.addressingError, a⟩ := by
  simp only [State.memWrite, Config.memWords]
  split
  · simp [show 32768 ≤ a by omega, eq_comm]
  · simp [show ¬ 32768 ≤ a by omega]

theorem State.jumpTo_eq_ok {s u : State} {t : Word} :
    s.jumpTo t = .ok u ↔ (t.toNat < 32768 ∧ s.mem.read t.toNat ≠ none) ∧ u = { s with pc := t } := by
  unfold State.jumpTo Memory.allocated
  have : Config.memWords = 32768 := rfl
  cases s.mem.read t.toNat <;> by_cases h : t.toNat < 32768 <;> simp [this, h, eq_comm, Nat.not_le.2, Nat.not_lt.1]

theorem State.jumpTo_eq_error {s : State} {t : Word} {e : Trap} :
    s.jumpTo t = .error e ↔ ¬ (t.toNat < 32768 ∧ s.mem.read t.toNat ≠ none) ∧ e = ⟨.addressingError, t.toNat⟩ := by
  unfold State.jumpTo Memory.allocated
  have : Config.memWords = 32768 := rfl
  cases s.mem.read t.toNat <;> by_cases h : t.toNat < 32768 <;> simp [this, h, eq_comm, Nat.not_le.2, Nat.not_lt.1]

/-! ### The operand stack -/

/-- A push finds the stack full only with a bounded capacity that is reached (R26). -/
theorem State.stackFull_eq_true {s : State} :
    s.stackFull = true ↔ ∃ k, s.stackCapacity = some k ∧ k ≤ s.stack.length := by
  unfold State.stackFull
  cases s.stackCapacity <;> simp

theorem State.pushWord_eq_ok {s t : State} {v : Word} :
    s.pushWord v = .ok t ↔ s.stackFull = false ∧ t = { s with stack := v :: s.stack } := by
  unfold State.pushWord
  cases s.stackFull <;> simp [eq_comm]

theorem State.pushWord_eq_error {s : State} {v : Word} {e : Trap} :
    s.pushWord v = .error e ↔ s.stackFull = true ∧ e = ⟨.stackOverflow, v.toNat⟩ := by
  unfold State.pushWord
  cases s.stackFull <;> simp [eq_comm]

theorem State.popWord_eq_ok {s t : State} {op : Op} {v : Word} :
    s.popWord op = .ok (v, t) ↔ ∃ rest, s.stack = v :: rest ∧ t = { s with stack := rest } := by
  unfold State.popWord
  cases s.stack <;> simp [eq_comm]

theorem State.popWord_eq_error {s : State} {op : Op} {e : Trap} :
    s.popWord op = .error e ↔ s.stack = [] ∧ e = ⟨.stackUnderflow, op.number⟩ := by
  unfold State.popWord
  cases s.stack <;> simp [eq_comm]

/-! ### The I/O channel -/

/-- Taking an input event changes the line buffer and the pending input alone. -/
theorem State.takeInput_eq_some {s t : State} {e : InputEvent} (h : s.takeInput = some (e, t)) :
    t = { s with lineBuffer := t.lineBuffer, pendingInput := t.pendingInput } := by
  unfold State.takeInput at h
  split at h
  · cases h
    rfl
  · split at h
    · cases h
      rfl
    · cases h

/-- The core waits for input exactly when the current line is used up and no delivered item holds an event (R87, R181). -/
theorem State.takeInput_eq_none {s : State} :
    s.takeInput = none ↔ s.lineBuffer = [] ∧ ∀ x ∈ s.pendingInput, x = .line [] := by
  have key : ∀ items : List InputItem, nextItem items = none ↔ ∀ x ∈ items, x = .line [] := by
    intro items
    induction items with
    | nil => simp [nextItem]
    | cons x items ih =>
      match x with
      | .line [] => simp [nextItem, ih]
      | .line (c :: codes) => simp [nextItem]
      | .endOfInput => simp [nextItem]
  unfold State.takeInput
  split
  · simp [*]
  · rename_i hbuf
    split
    · rename_i hitem
      simp [hbuf, ← key, hitem]
    · rename_i hitem
      simp [hbuf, ← key, hitem]

/-- Lines that hold no code are passed over, and the item after them is read (R183). -/
theorem nextItem_append {items : List InputItem} (h : ∀ x ∈ items, x = .line []) (more : List InputItem) :
    nextItem (items ++ more) = nextItem more := by
  induction items with
  | nil => rfl
  | cons x items ih =>
    have hx := h x (by simp)
    subst hx
    simpa [nextItem] using ih fun y hy => h y (by simp [hy])

/-! ### Instruction shapes -/

/-- What an L3 register-writing instruction can answer: its result in the destination register, or fault entry with the first fault. -/
theorem State.writeUnary_next {s t : State} {a : Dst} {b : Src} {f : Word → Except Trap Word}
    (h : s.writeUnary a b f = .next t) :
    (∃ d vb v, a = .reg d ∧ s.value b = .ok vb ∧ f vb = .ok v ∧ t = (s.setReg d v).advance 3) ∨
    (∃ e, t = s.raise e ∧ (destIndex a = .error e ∨ (∃ d, a = .reg d) ∧
      (s.value b = .error e ∨ ∃ vb, s.value b = .ok vb ∧ f vb = .error e))) := by
  unfold State.writeUnary at h
  rcases State.commit_next h with hr | ⟨e, hr, rfl⟩
  · simp only [bind_eq_ok, destIndex_eq_ok, pure_eq_ok, Except.ok.injEq] at hr
    obtain ⟨d, rfl, vb, hb, v, hv, rfl⟩ := hr
    exact .inl ⟨d, vb, v, rfl, hb, hv, rfl⟩
  · simp only [bind_eq_error, destIndex_eq_ok, pure_eq_ok] at hr
    refine .inr ⟨e, rfl, ?_⟩
    obtain h | ⟨d, rfl, h | ⟨vb, hb, h | ⟨v, hv, h⟩⟩⟩ := hr
    · exact .inl h
    · exact .inr ⟨⟨d, rfl⟩, .inl h⟩
    · exact .inr ⟨⟨d, rfl⟩, .inr ⟨vb, hb, h⟩⟩
    · cases h

/-- What an L4 instruction can answer: its result in the destination register, or fault entry with the first fault. -/
theorem State.writeBinary_next {s t : State} {a : Dst} {b c : Src} {f : Word → Word → Except Trap Word}
    (h : s.writeBinary a b c f = .next t) :
    (∃ d vb vc v, a = .reg d ∧ s.value b = .ok vb ∧ s.value c = .ok vc ∧ f vb vc = .ok v ∧
      t = (s.setReg d v).advance 4) ∨
    (∃ e, t = s.raise e ∧ (destIndex a = .error e ∨ (∃ d, a = .reg d) ∧
      (s.value b = .error e ∨ ∃ vb, s.value b = .ok vb ∧
        (s.value c = .error e ∨ ∃ vc, s.value c = .ok vc ∧ f vb vc = .error e)))) := by
  unfold State.writeBinary at h
  rcases State.commit_next h with hr | ⟨e, hr, rfl⟩
  · simp only [bind_eq_ok, destIndex_eq_ok, pure_eq_ok, Except.ok.injEq] at hr
    obtain ⟨d, rfl, vb, hb, vc, hc, v, hv, rfl⟩ := hr
    exact .inl ⟨d, vb, vc, v, rfl, hb, hc, hv, rfl⟩
  · simp only [bind_eq_error, destIndex_eq_ok, pure_eq_ok] at hr
    refine .inr ⟨e, rfl, ?_⟩
    obtain h | ⟨d, rfl, h | ⟨vb, hb, h | ⟨vc, hc, h | ⟨v, hv, h⟩⟩⟩⟩ := hr
    · exact .inl h
    · exact .inr ⟨⟨d, rfl⟩, .inl h⟩
    · exact .inr ⟨⟨d, rfl⟩, .inr ⟨vb, hb, .inl h⟩⟩
    · exact .inr ⟨⟨d, rfl⟩, .inr ⟨vb, hb, .inr ⟨vc, hc, h⟩⟩⟩
    · cases h

/-- What a conditional jump can answer: the next address, the target, or fault entry with the first fault. -/
theorem State.branch_next {s t : State} {a b : Src} {taken : Word → Bool} (h : s.branch a b taken = .next t) :
    (∃ vc v, s.value a = .ok vc ∧ s.value b = .ok v ∧
      ((taken vc = false ∧ t = s.advance 3) ∨ (taken vc = true ∧ s.jumpTo v = .ok t))) ∨
    (∃ e, t = s.raise e ∧ (s.value a = .error e ∨ ∃ vc, s.value a = .ok vc ∧
      (s.value b = .error e ∨ ∃ v, s.value b = .ok v ∧ taken vc = true ∧ s.jumpTo v = .error e))) := by
  unfold State.branch at h
  rcases State.commit_next h with hr | ⟨e, hr, rfl⟩
  · simp only [bind_eq_ok] at hr
    obtain ⟨vc, ha, v, hb, h⟩ := hr
    refine .inl ⟨vc, v, ha, hb, ?_⟩
    cases hv : taken vc <;> simp_all
  · simp only [bind_eq_error] at hr
    refine .inr ⟨e, rfl, ?_⟩
    obtain h | ⟨vc, ha, h | ⟨v, hb, h⟩⟩ := hr
    · exact .inl h
    · exact .inr ⟨vc, ha, .inl h⟩
    · cases hv : taken vc <;> simp_all

end Sys2Proof.Machine
end

