-- ==== Sys2Proof/Laws/Step.lean ====
section
/-! SUPPORT. What each meaning, the fetch and the step can answer, said once: later proofs cite these and unfold no meaning. -/

namespace Sys2Proof.Machine

/-! ### Meanings that do not have one of the shared shapes -/

theorem execPush_next {a : Src} {s t : State} (h : execPush a s = .next t) :
    (∃ v, s.value a = .ok v ∧ s.stackFull = false ∧ t = ({ s with stack := v :: s.stack } : State).advance 2) ∨
    (∃ e, t = s.raise e ∧ (s.value a = .error e ∨
      ∃ v, s.value a = .ok v ∧ s.stackFull = true ∧ e = ⟨.stackOverflow, v.toNat⟩)) := by
  rcases State.commit_next h with hr | ⟨e, hr, rfl⟩
  · simp only [bind_eq_ok, State.pushWord_eq_ok, pure_eq_ok, Except.ok.injEq] at hr
    obtain ⟨v, ha, _, ⟨hf, rfl⟩, rfl⟩ := hr
    exact .inl ⟨v, ha, hf, rfl⟩
  · simp only [bind_eq_error, State.pushWord_eq_error, pure_eq_ok, reduceCtorEq, and_false, exists_false, or_false] at hr
    exact .inr ⟨e, rfl, hr⟩

theorem execPop_next {a : Dst} {s t : State} (h : execPop a s = .next t) :
    (∃ d v rest, a = .reg d ∧ s.stack = v :: rest ∧
      t = (({ s with stack := rest } : State).setReg d v).advance 2) ∨
    (∃ e, t = s.raise e ∧ (destIndex a = .error e ∨
      (∃ d, a = .reg d) ∧ s.stack = [] ∧ e = ⟨.stackUnderflow, 3⟩)) := by
  rcases State.commit_next h with hr | ⟨e, hr, rfl⟩
  · simp only [bind_eq_ok, destIndex_eq_ok, Prod.exists, State.popWord_eq_ok, pure_eq_ok, Except.ok.injEq] at hr
    obtain ⟨d, rfl, v, _, ⟨rest, hs, rfl⟩, rfl⟩ := hr
    exact .inl ⟨d, v, rest, rfl, hs, rfl⟩
  · simp only [bind_eq_error, destIndex_eq_ok, State.popWord_eq_error, pure_eq_ok, reduceCtorEq, and_false, exists_false,
      or_false] at hr
    obtain hr | ⟨d, rfl, hs, rfl⟩ := hr
    · exact .inr ⟨e, rfl, .inl hr⟩
    · exact .inr ⟨_, rfl, .inr ⟨⟨d, rfl⟩, hs, rfl⟩⟩

theorem execJmp_next {a : Src} {s t : State} (h : execJmp a s = .next t) :
    (∃ v, s.value a = .ok v ∧ s.jumpTo v = .ok t) ∨
    (∃ e, t = s.raise e ∧ (s.value a = .error e ∨ ∃ v, s.value a = .ok v ∧ s.jumpTo v = .error e)) := by
  rcases State.commit_next h with hr | ⟨e, hr, rfl⟩
  · exact .inl (bind_eq_ok.1 hr)
  · exact .inr ⟨e, rfl, bind_eq_error.1 hr⟩

theorem execWmem_next {a b : Src} {s t : State} (h : execWmem a b s = .next t) :
    (∃ x v, s.value a = .ok x ∧ s.value b = .ok v ∧ x.toNat < 32768 ∧
      t = ({ s with mem := s.mem.write x.toNat v } : State).advance 3) ∨
    (∃ e, t = s.raise e ∧ (s.value a = .error e ∨ ∃ x, s.value a = .ok x ∧
      (s.value b = .error e ∨ 32768 ≤ x.toNat ∧ e = ⟨.addressingError, x.toNat⟩))) := by
  rcases State.commit_next h with hr | ⟨e, hr, rfl⟩
  · simp only [bind_eq_ok, State.memWrite_eq_ok, pure_eq_ok, Except.ok.injEq] at hr
    obtain ⟨x, ha, v, hb, _, ⟨hx, rfl⟩, rfl⟩ := hr
    exact .inl ⟨x, v, ha, hb, hx, rfl⟩
  · simp only [bind_eq_error, State.memWrite_eq_error, pure_eq_ok, reduceCtorEq, and_false, exists_false, or_false] at hr
    obtain hr | ⟨x, ha, hr | ⟨v, -, hr⟩⟩ := hr
    · exact .inr ⟨e, rfl, .inl hr⟩
    · exact .inr ⟨e, rfl, .inr ⟨x, ha, .inl hr⟩⟩
    · exact .inr ⟨e, rfl, .inr ⟨x, ha, .inr hr⟩⟩

theorem execCall_next {a : Src} {s t : State} (h : execCall a s = .next t) :
    (∃ v, s.value a = .ok v ∧ s.pc.toNat + 2 < 32768 ∧ v.toNat < 32768 ∧ s.mem.read v.toNat ≠ none ∧ s.stackFull = false ∧
      t = { s with pc := v, stack := BitVec.ofNat 16 (s.pc.toNat + 2) :: s.stack }) ∨
    (∃ e, t = s.raise e ∧ (s.value a = .error e ∨ ∃ v, s.value a = .ok v ∧
      (32768 ≤ s.pc.toNat + 2 ∧ e = ⟨.addressingError, s.pc.toNat + 2⟩ ∨
        s.pc.toNat + 2 < 32768 ∧ s.jumpTo v = .error e ∨
        s.pc.toNat + 2 < 32768 ∧ s.stackFull = true ∧ e = ⟨.stackOverflow, s.pc.toNat + 2⟩))) := by
  unfold execCall at h
  cases ha : s.value a with
  | error e =>
    rw [ha] at h
    exact .inr ⟨e, by simpa using h.symm, .inl rfl⟩
  | ok v =>
    simp only [ha, ok_bind] at h
    by_cases hge : Config.memWords ≤ s.pc.toNat + 2
    · rw [if_pos hge] at h
      exact .inr ⟨_, by simpa using h.symm, .inr ⟨v, rfl, .inl ⟨hge, rfl⟩⟩⟩
    · have hlt : s.pc.toNat + 2 < 32768 := Nat.not_le.1 hge
      rw [if_neg hge] at h
      cases hj : s.jumpTo v with
      | error e =>
        rw [hj] at h
        exact .inr ⟨e, by simpa using h.symm, .inr ⟨v, rfl, .inr (.inl ⟨hlt, hj⟩)⟩⟩
      | ok u =>
        obtain ⟨⟨hv, hm⟩, rfl⟩ := State.jumpTo_eq_ok.1 hj
        rw [hj, ok_bind] at h
        rcases State.commit_next h with hr | ⟨e, hr, rfl⟩
        · obtain ⟨hf, rfl⟩ := State.pushWord_eq_ok.1 hr
          exact .inl ⟨v, rfl, hlt, hv, hm, hf, rfl⟩
        · obtain ⟨hf, rfl⟩ := State.pushWord_eq_error.1 hr
          refine .inr ⟨_, rfl, .inr ⟨v, rfl, .inr (.inr ⟨hlt, hf, ?_⟩)⟩⟩
          rw [BitVec.toNat_ofNat, Nat.mod_eq_of_lt (by omega)]

theorem execRet_next {s t : State} (h : execRet s = .next t) :
    (∃ v rest, s.stack = v :: rest ∧ v.toNat < 32768 ∧ s.mem.read v.toNat ≠ none ∧
      t = { s with stack := rest, pc := v }) ∨
    (∃ e, t = s.raise e ∧ (s.stack = [] ∧ e = ⟨.stackUnderflow, 18⟩ ∨
      ∃ v rest, s.stack = v :: rest ∧ ¬ (v.toNat < 32768 ∧ s.mem.read v.toNat ≠ none) ∧
        e = ⟨.addressingError, v.toNat⟩)) := by
  rcases State.commit_next h with hr | ⟨e, hr, rfl⟩
  · simp only [bind_eq_ok, Prod.exists, State.popWord_eq_ok, State.jumpTo_eq_ok] at hr
    obtain ⟨v, _, ⟨rest, hs, rfl⟩, ⟨hv, hm⟩, rfl⟩ := hr
    exact .inl ⟨v, rest, hs, hv, hm, rfl⟩
  · simp only [bind_eq_error, Prod.exists, State.popWord_eq_ok, State.popWord_eq_error, State.jumpTo_eq_error] at hr
    obtain ⟨hs, rfl⟩ | ⟨v, _, ⟨rest, hs, rfl⟩, hv, rfl⟩ := hr
    · exact .inr ⟨_, rfl, .inl ⟨hs, rfl⟩⟩
    · exact .inr ⟨_, rfl, .inr ⟨v, rest, hs, hv, rfl⟩⟩

theorem execOut_next {a : Src} {s t : State} (h : execOut a s = .next t) :
    (∃ c, s.value a = .ok c ∧ t = (s.emit c).advance 2) ∨ (∃ e, t = s.raise e ∧ s.value a = .error e) := by
  rcases State.commit_next h with hr | ⟨e, hr, rfl⟩
  · simp only [bind_eq_ok, pure_eq_ok, Except.ok.injEq] at hr
    obtain ⟨c, ha, rfl⟩ := hr
    exact .inl ⟨c, ha, rfl⟩
  · simp only [bind_eq_error, pure_eq_ok, reduceCtorEq, and_false, exists_false, or_false] at hr
    exact .inr ⟨e, rfl, hr⟩

/-- What `in` can answer: the operand's fault, the hold, a code in the destination register, or a fault with the event consumed. -/
theorem execIn_next {a : Dst} {s t : State} (h : execIn a s = .next t) :
    (∃ e, destIndex a = .error e ∧ t = s.raise e) ∨
    (∃ d, a = .reg d ∧ s.takeInput = none ∧ t = s) ∨
    (∃ d c u, a = .reg d ∧ s.takeInput = some (.char c, u) ∧ c ≤ 32767 ∧ t = (u.setReg d (BitVec.ofNat 16 c)).advance 2) ∨
    (∃ d ev u e, a = .reg d ∧ s.takeInput = some (ev, u) ∧ t = u.raise e ∧
      ((∃ c, ev = .char c ∧ 32767 < c ∧ e = ⟨.valueOutOfRange, c⟩) ∨ ev = .endOfInput ∧ e = ⟨.inputEndOfFile, 0⟩)) := by
  unfold execIn at h
  cases a with
  | notRegister w => exact .inl ⟨_, rfl, by simpa using h.symm⟩
  | reg d =>
    refine .inr ?_
    simp only [destIndex_reg] at h
    match hin : s.takeInput with
    | none =>
      rw [hin] at h
      exact .inl ⟨d, rfl, rfl, by simpa using h.symm⟩
    | some (.char c, u) =>
      simp only [hin, Config.valueMax] at h
      split at h
      · exact .inr (.inr ⟨d, _, u, ⟨.valueOutOfRange, c⟩, rfl, rfl, by simpa using h.symm, .inl ⟨c, rfl, ‹_›, rfl⟩⟩)
      · exact .inr (.inl ⟨d, c, u, rfl, rfl, by omega, by simpa using h.symm⟩)
    | some (.endOfInput, u) =>
      simp only [hin] at h
      exact .inr (.inr ⟨d, _, u, ⟨.inputEndOfFile, 0⟩, rfl, rfl, by simpa using h.symm, .inr ⟨rfl, rfl⟩⟩)

/-! ### The whole instruction set -/

/-- Every instruction answers a next state, in every state. -/
theorem exec_answers_next (i : Instr) (s : State) : ∃ t, exec i s = .next t := by
  have commit (r : Except Trap State) : ∃ t, s.commit r = .next t := by cases r <;> exact ⟨_, rfl⟩
  cases i <;> first
    | exact commit _
    | exact ⟨_, rfl⟩
    | skip
  case in_ a =>
    simp only [exec, execIn]
    split
    · exact ⟨_, rfl⟩
    · split
      · exact ⟨_, rfl⟩
      · split <;> exact ⟨_, rfl⟩
      · exact ⟨_, rfl⟩

/-! ### Fetch and step -/

theorem step_eq (s : State) : step s = engineStep s := rfl

theorem step_of_running {s : State} (h : s.status = .running) :
    step s = match s.fetch with
      | .ok i => exec i s
      | .error e => .next (s.raise e) := by
  cases hf : s.fetch <;> simp [step, engineStep, h, hf]

/-- A step that answers a next state was taken in Running (R80), and it is an instruction's execution or a fetch's fault. -/
theorem step_next {s t : State} (h : step s = .next t) :
    s.status = .running ∧ ((∃ i, s.fetch = .ok i ∧ exec i s = .next t) ∨ ∃ e, s.fetch = .error e ∧ t = s.raise e) := by
  cases hs : s.status with
  | running =>
    rw [step_of_running hs] at h
    cases hf : s.fetch with
    | ok i => exact ⟨rfl, .inl ⟨i, rfl, by simpa [hf] using h⟩⟩
    | error e => exact ⟨rfl, .inr ⟨e, rfl, by simpa [hf] using h.symm⟩⟩
  | halted => simp [step, engineStep, hs] at h
  | faulted r => simp [step, engineStep, hs] at h

/-- The readable words from an address: each is the word there. -/
theorem State.readableWords_getElem {s : State} {n a k : Nat} {w : Word} (h : (s.readableWords a n)[k]? = some w) :
    s.memRead (a + k) = .ok w ∧ k < n := by
  induction n generalizing a k with
  | zero => simp [State.readableWords] at h
  | succ n ih =>
    simp only [State.readableWords] at h
    cases hm : s.memRead a with
    | error e => simp [hm] at h
    | ok v =>
      simp only [hm] at h
      cases k with
      | zero => exact ⟨by simpa [hm] using h, by omega⟩
      | succ k =>
        obtain ⟨h1, h2⟩ := ih h
        exact ⟨by rw [← h1]; congr 1; omega, by omega⟩

/-- Words that can be read one after the other are among the readable words. -/
theorem State.readableWords_of_placed {s : State} {ws : List Word} {a n : Nat}
    (h : ∀ k w, ws[k]? = some w → s.memRead (a + k) = .ok w) (hn : ws.length ≤ n) :
    s.readableWords a n = ws ++ s.readableWords (a + ws.length) (n - ws.length) := by
  induction ws generalizing a n with
  | nil => simp
  | cons w ws ih =>
    obtain ⟨m, rfl⟩ : ∃ m, n = m + 1 := ⟨n - 1, by simp at hn; omega⟩
    have h0 : s.memRead a = .ok w := h 0 w rfl
    have hrest : ∀ k v, ws[k]? = some v → s.memRead (a + 1 + k) = .ok v := fun k v hk => by
      have := h (k + 1) v (by simpa using hk)
      rwa [show a + 1 + k = a + (k + 1) by omega]
    simp only [State.readableWords, h0, List.cons_append, List.length_cons]
    rw [ih hrest (by simpa using hn)]
    simp [show a + 1 + ws.length = a + (ws.length + 1) by omega]

theorem State.readableWords_length_le (s : State) (n a : Nat) : (s.readableWords a n).length ≤ n := by
  induction n generalizing a with
  | zero => simp [State.readableWords]
  | succ n ih =>
    simp only [State.readableWords]
    split
    · simpa using ih (a + 1)
    · simp

/-- Where fewer words than asked for can be read, the address after the last one cannot be. -/
theorem State.memRead_after_readableWords {s : State} {n a : Nat} (h : (s.readableWords a n).length < n) :
    s.memRead (a + (s.readableWords a n).length) = .error ⟨.addressingError, a + (s.readableWords a n).length⟩ := by
  induction n generalizing a with
  | zero => simp at h
  | succ n ih =>
    cases hm : s.memRead a with
    | error e =>
      have := (State.memRead_eq_error.1 hm).2
      simp [State.readableWords, hm, this]
    | ok w =>
      simp only [State.readableWords, hm, List.length_cons] at h ⊢
      have := ih (a := a + 1) (by omega)
      rwa [show a + 1 + (s.readableWords (a + 1) n).length = a + ((s.readableWords (a + 1) n).length + 1) by omega] at this

end Sys2Proof.Machine
end

