-- ==== Sys2Proof/Laws/Effects.lean ====
section
/-! SUPPORT. Everything executing an instruction can do, said once: `Effect i s t` lists the ways `exec i s` can answer `t`, and
`FaultCause i s e` lists what makes `exec i s` raise `e`. Whole-machine facts are proved by cases on these. -/

namespace Sys2Proof.Machine

/-- The instructions that may find a cell missing (R202), and `wmem` where its address is no cell's, which no run reaches (R43). -/
def MissesCell (i : Instr) (s : State) : Prop :=
  ∃ (d : Dst) (b c : Src), i = .jmp b ∨ i = .jt c b ∨ i = .jf c b ∨ i = .call b ∨ i = .ret ∨ i = .rmem d b ∨
    (i = .wmem b c ∧ ∃ x, s.value b = .ok x ∧ 32768 ≤ x.toNat)

/-- Why executing an instruction raises a fault (R202), its input faults apart. -/
inductive FaultCause (i : Instr) (s : State) : Trap → Prop where
  | source (w : Word) (h : Src.outOfRange w ∈ i.sources) : FaultCause i s ⟨.operandOutOfRange, w.toNat⟩
  | dest (w : Word) (h : i.destination = some (.notRegister w)) : FaultCause i s ⟨.invalidRegisterIndex, w.toNat⟩
  | pop (d : RegIndex) (h : i = .pop (.reg d)) (hs : s.stack = []) : FaultCause i s ⟨.stackUnderflow, 3⟩
  | ret (h : i = .ret) (hs : s.stack = []) : FaultCause i s ⟨.stackUnderflow, 18⟩
  | divisor (d : RegIndex) (b c : Src) (h : i = .mod (.reg d) b c) (hc : s.value c = .ok 0) :
    FaultCause i s ⟨.arithmeticError, c.word.toNat⟩
  | address (a : Nat) (ha : 32768 ≤ a ∨ s.mem.read a = none) (hb : a < 65536 ∨ a = s.pc.toNat + 2) (hi : MissesCell i s) :
    FaultCause i s ⟨.addressingError, a⟩
  | stored (d : RegIndex) (b : Src) (x w : Word) (h : i = .rmem (.reg d) b) (hb : s.value b = .ok x)
      (hm : s.mem.read x.toNat = some w) (hw : 32767 < w.toNat) :
    FaultCause i s ⟨.valueOutOfRange, w.toNat⟩
  | full (b : Src) (n : Nat) (h : (∃ v, i = .push b ∧ s.value b = .ok v ∧ n = v.toNat) ∨ i = .call b ∧ n = s.pc.toNat + 2)
      (hf : s.stackFull = true) (hn : n < 65536) :
    FaultCause i s ⟨.stackOverflow, n⟩

/-- The ways an instruction's execution can end. -/
inductive Effect (i : Instr) (s : State) : State → Prop where
  /-- fault entry in the state the instruction began in -/
  | fault (e : Trap) (h : FaultCause i s e) : Effect i s (s.raise e)
  /-- fault entry of `in` with the event consumed -/
  | inputFault (d : RegIndex) (ev : InputEvent) (u : State) (e : Trap) (h : i = .in_ (.reg d))
      (hin : s.takeInput = some (ev, u))
      (he : (∃ c, ev = .char c ∧ 32767 < c ∧ e = ⟨.valueOutOfRange, c⟩) ∨ ev = .endOfInput ∧ e = ⟨.inputEndOfFile, 0⟩) : Effect i s (u.raise e)
  /-- the hold of `in` -/
  | hold (d : RegIndex) (h : i = .in_ (.reg d)) (hin : s.takeInput = none) : Effect i s s
  /-- a character code in the destination register -/
  | took (d : RegIndex) (c : Nat) (u : State) (h : i = .in_ (.reg d)) (hin : s.takeInput = some (.char c, u))
      (hc : c ≤ 32767) : Effect i s ((u.setReg d (BitVec.ofNat 16 c)).advance i.length)
  /-- the clean end -/
  | halted (h : i = .halt) : Effect i s { s.advance 1 with status := .halted }
  /-- a result in the destination register; in range wherever the registers are -/
  | wrote (d : RegIndex) (v : Word) (h : i.destination = some (.reg d)) (hi : ∀ a, i ≠ .pop a) (hn : ∀ a, i ≠ .in_ a)
      (hv : i.wellFormed = true → (∀ r, (s.reg r).toNat ≤ 32767) → v.toNat ≤ 32767) :
      Effect i s ((s.setReg d v).advance i.length)
  | popped (d : RegIndex) (v : Word) (rest : List Word) (h : i = .pop (.reg d)) (hs : s.stack = v :: rest) :
      Effect i s ((({ s with stack := rest } : State).setReg d v).advance i.length)
  | pushed (b : Src) (v : Word) (h : i = .push b) (hb : s.value b = .ok v) (hf : s.stackFull = false) :
      Effect i s (({ s with stack := v :: s.stack } : State).advance i.length)
  /-- nothing but the pc at the next instruction: `noop`, or a conditional jump not taken -/
  | skipped (h : i = .noop ∨ ∃ a b, i = .jt a b ∨ i = .jf a b) : Effect i s (s.advance i.length)
  /-- a taken jump -/
  | jumped (v : Word) (h : ∃ a b, i = .jmp a ∨ i = .jt a b ∨ i = .jf a b) (hv : v.toNat < 32768)
      (hm : s.mem.read v.toNat ≠ none) : Effect i s { s with pc := v }
  | stored (a b : Src) (x v : Word) (h : i = .wmem a b) (ha : s.value a = .ok x) (hb : s.value b = .ok v)
      (hx : x.toNat < 32768) : Effect i s (({ s with mem := s.mem.write x.toNat v } : State).advance i.length)
  | called (a : Src) (v : Word) (h : i = .call a) (ha : s.value a = .ok v) (hr : s.pc.toNat + 2 < 32768) (hv : v.toNat < 32768)
      (hm : s.mem.read v.toNat ≠ none) (hf : s.stackFull = false) :
      Effect i s { s with pc := v, stack := BitVec.ofNat 16 (s.pc.toNat + 2) :: s.stack }
  | returned (v : Word) (rest : List Word) (h : i = .ret) (hs : s.stack = v :: rest) (hv : v.toNat < 32768)
      (hm : s.mem.read v.toNat ≠ none) : Effect i s { s with pc := v, stack := rest }
  | emitted (a : Src) (c : Word) (h : i = .out a) (ha : s.value a = .ok c) : Effect i s ((s.emit c).advance i.length)

/-- R21: with the registers in range, every well-formed source operand resolves to a value in range. -/
theorem State.value_le {s : State} {x : Src} {v : Word} (hs : ∀ r, (s.reg r).toNat ≤ 32767) (hx : x.wf = true)
    (hv : s.value x = .ok v) : v.toNat ≤ 32767 := by
  cases x with
  | lit u =>
    rw [State.value_lit, Except.ok.injEq] at hv
    exact hv ▸ (Src.wf_lit u).1 hx
  | reg r =>
    rw [State.value_reg, Except.ok.injEq] at hv
    exact hv ▸ hs r
  | outOfRange w => cases hv

theorem sourceFault {i : Instr} {s : State} {x : Src} {e : Trap} (hx : x ∈ i.sources) (h : s.value x = .error e) :
    FaultCause i s e := by
  obtain ⟨w, rfl, rfl⟩ := State.value_eq_error.1 h
  exact .source w hx

theorem destFault {i : Instr} {s : State} {a : Dst} {e : Trap} (ha : i.destination = some a) (h : destIndex a = .error e) :
    FaultCause i s e := by
  obtain ⟨w, rfl, rfl⟩ := destIndex_eq_error.1 h
  exact .dest w ha

theorem jumpFault {i : Instr} {s : State} {v : Word} {e : Trap} (hi : MissesCell i s) (h : s.jumpTo v = .error e) :
    FaultCause i s e := by
  obtain ⟨hv, rfl⟩ := State.jumpTo_eq_error.1 h
  refine .address _ ?_ (.inl v.isLt) hi
  by_cases hm : s.mem.read v.toNat = none
  · exact .inr hm
  · exact .inl (by by_contra hlt; exact hv ⟨by omega, hm⟩)

/-- The effect of an L4 instruction whose result is in range and whose own check, if any, has a cause. -/
theorem binaryEffect {i : Instr} {s t : State} {a : Dst} {b c : Src} {f : Word → Word → Except Trap Word}
    (hd : i.destination = some a) (hs : i.sources = [b, c]) (hlen : i.length = 4) (hi : ∀ x, i ≠ .pop x) (hn : ∀ x, i ≠ .in_ x)
    (hv : ∀ vb vc v, f vb vc = .ok v → vb.toNat ≤ 32767 → vc.toNat ≤ 32767 → v.toNat ≤ 32767)
    (he : ∀ d vb vc e, a = .reg d → s.value b = .ok vb → s.value c = .ok vc → f vb vc = .error e → FaultCause i s e)
    (h : s.writeBinary a b c f = .next t) : Effect i s t := by
  rcases State.writeBinary_next h with ⟨d, vb, vc, v, rfl, hb, hc, hf, rfl⟩ | ⟨e, rfl, hcase⟩
  · rw [← hlen]
    refine .wrote d v hd hi hn fun hwf hreg => ?_
    simp only [Instr.wellFormed, hs, List.all_cons, Bool.and_eq_true] at hwf
    exact hv vb vc v hf (State.value_le hreg hwf.2.1 hb) (State.value_le hreg hwf.2.2.1 hc)
  · refine .fault e ?_
    obtain h | ⟨⟨d, hda⟩, h | ⟨vb, hb, h | ⟨vc, hc, h⟩⟩⟩ := hcase
    · exact destFault hd h
    · exact sourceFault (by simp [hs]) h
    · exact sourceFault (by simp [hs]) h
    · exact he d vb vc e hda hb hc h

/-- The effect of an L3 instruction that writes a register. -/
theorem unaryEffect {i : Instr} {s t : State} {a : Dst} {b : Src} {f : Word → Except Trap Word}
    (hd : i.destination = some a) (hs : i.sources = [b]) (hlen : i.length = 3) (hi : ∀ x, i ≠ .pop x) (hn : ∀ x, i ≠ .in_ x)
    (hv : ∀ vb v, f vb = .ok v → vb.toNat ≤ 32767 → v.toNat ≤ 32767)
    (he : ∀ d vb e, a = .reg d → s.value b = .ok vb → f vb = .error e → FaultCause i s e)
    (h : s.writeUnary a b f = .next t) : Effect i s t := by
  rcases State.writeUnary_next h with ⟨d, vb, v, rfl, hb, hf, rfl⟩ | ⟨e, rfl, hcase⟩
  · rw [← hlen]
    refine .wrote d v hd hi hn fun hwf hreg => ?_
    simp only [Instr.wellFormed, hs, List.all_cons, Bool.and_eq_true] at hwf
    exact hv vb v hf (State.value_le hreg hwf.2.1 hb)
  · refine .fault e ?_
    obtain h | ⟨⟨d, hda⟩, h | ⟨vb, hb, h⟩⟩ := hcase
    · exact destFault hd h
    · exact sourceFault (by simp [hs]) h
    · exact he d vb e hda hb h

/-- The effect of a conditional jump. -/
theorem branchEffect {i : Instr} {s t : State} {a b : Src} {taken : Word → Bool} (hs : i.sources = [a, b]) (hlen : i.length = 3)
    (hi : i = .jt a b ∨ i = .jf a b) (h : s.branch a b taken = .next t) : Effect i s t := by
  rcases State.branch_next h with ⟨vc, v, -, -, ⟨-, rfl⟩ | ⟨-, hj⟩⟩ | ⟨e, rfl, hcase⟩
  · rw [← hlen]
    exact .skipped (.inr ⟨a, b, hi⟩)
  · obtain ⟨⟨hv, hm⟩, rfl⟩ := State.jumpTo_eq_ok.1 hj
    exact .jumped v ⟨a, b, .inr hi⟩ hv hm
  · refine .fault e ?_
    obtain h | ⟨vc, -, h | ⟨v, -, -, h⟩⟩ := hcase
    · exact sourceFault (by simp [hs]) h
    · exact sourceFault (by simp [hs]) h
    · exact jumpFault (⟨.reg 0, b, a, by rcases hi with rfl | rfl <;> simp⟩) h

/-! ### Results stay in range (R21, R140) -/

theorem truthWord_le (b : Bool) : (truthWord b).toNat ≤ 32767 := by cases b <;> decide

theorem sumWord_le (x y : Word) : (sumWord x y).toNat ≤ 32767 := by
  simp only [sumWord, Config.valueMod, BitVec.toNat_ofNat]
  omega

theorem productWord_le (x y : Word) : (productWord x y).toNat ≤ 32767 := by
  simp only [productWord, Config.valueMod, BitVec.toNat_ofNat]
  omega

theorem remainderWord_le {x : Word} (y : Word) (hx : x.toNat ≤ 32767) : (remainderWord x y).toNat ≤ 32767 := by
  simp only [remainderWord, BitVec.toNat_ofNat]
  exact (Nat.mod_le ..).trans ((Nat.mod_le ..).trans hx)

theorem complementWord_le (x : Word) : (complementWord x).toNat ≤ 32767 := by
  simp only [complementWord, Config.valueMax, BitVec.toNat_ofNat]
  omega

theorem and_le {x : Word} (y : Word) (hx : x.toNat ≤ 32767) : (x &&& y).toNat ≤ 32767 := by
  rw [BitVec.toNat_and]
  exact Nat.and_le_left.trans hx

theorem or_le {x y : Word} (hx : x.toNat ≤ 32767) (hy : y.toNat ≤ 32767) : (x ||| y).toNat ≤ 32767 := by
  rw [BitVec.toNat_or]
  exact Nat.le_of_lt_succ (Nat.or_lt_two_pow (n := 15) (Nat.lt_succ_of_le hx) (Nat.lt_succ_of_le hy))

/-- Every answer of `exec` is one of the listed effects. -/
theorem exec_effect {i : Instr} {s t : State} (h : exec i s = .next t) : Effect i s t := by
  cases i with
  | halt =>
    rw [← show { s.advance 1 with status := .halted } = t by simpa [exec, execHalt] using h]
    exact .halted rfl
  | set a b =>
    exact unaryEffect rfl rfl rfl (by simp) (by simp) (by rintro _ _ ⟨⟩ h; exact h) (by rintro _ _ _ - - ⟨⟩) h
  | push a =>
    rcases execPush_next h with ⟨v, ha, hf, rfl⟩ | ⟨e, rfl, h | ⟨v, ha, hf, rfl⟩⟩
    · exact .pushed a v rfl ha hf
    · exact .fault e (sourceFault (by simp [Instr.sources]) h)
    · exact .fault _ (.full a _ (.inl ⟨v, rfl, ha, rfl⟩) hf v.isLt)
  | pop a =>
    rcases execPop_next h with ⟨d, v, rest, rfl, hs, rfl⟩ | ⟨e, rfl, h | ⟨⟨d, rfl⟩, hs, rfl⟩⟩
    · exact .popped d v rest rfl hs
    · exact .fault e (destFault rfl h)
    · exact .fault _ (.pop d rfl hs)
  | eq a b c =>
    exact binaryEffect rfl rfl rfl (by simp) (by simp) (by rintro _ _ _ ⟨⟩ - -; exact truthWord_le _)
      (by rintro _ _ _ _ - - - ⟨⟩) h
  | gt a b c =>
    exact binaryEffect rfl rfl rfl (by simp) (by simp) (by rintro _ _ _ ⟨⟩ - -; exact truthWord_le _)
      (by rintro _ _ _ _ - - - ⟨⟩) h
  | jmp a =>
    rcases execJmp_next h with ⟨v, -, hj⟩ | ⟨e, rfl, h | ⟨v, -, h⟩⟩
    · obtain ⟨⟨hv, hm⟩, rfl⟩ := State.jumpTo_eq_ok.1 hj
      exact .jumped v ⟨a, a, .inl rfl⟩ hv hm
    · exact .fault e (sourceFault (by simp [Instr.sources]) h)
    · exact .fault e (jumpFault (⟨.reg 0, a, a, by simp⟩) h)
  | jt a b => exact branchEffect rfl rfl (.inl rfl) h
  | jf a b => exact branchEffect rfl rfl (.inr rfl) h
  | add a b c =>
    exact binaryEffect rfl rfl rfl (by simp) (by simp) (by rintro _ _ _ ⟨⟩ - -; exact sumWord_le _ _)
      (by rintro _ _ _ _ - - - ⟨⟩) h
  | mult a b c =>
    exact binaryEffect rfl rfl rfl (by simp) (by simp) (by rintro _ _ _ ⟨⟩ - -; exact productWord_le _ _)
      (by rintro _ _ _ _ - - - ⟨⟩) h
  | mod a b c =>
    refine binaryEffect rfl rfl rfl (by simp) (by simp) (fun vb vc v hv hb _ => ?_) (fun d vb vc e hd _ hc he => ?_) h
    · split at hv
      · cases hv
      · rw [Except.ok.injEq] at hv
        exact hv ▸ remainderWord_le vc hb
    · split at he
      · subst hd
        subst vc
        rw [Except.error.injEq] at he
        exact he ▸ .divisor d b c rfl hc
      · cases he
  | and a b c =>
    exact binaryEffect rfl rfl rfl (by simp) (by simp) (by rintro _ _ _ ⟨⟩ h -; exact and_le _ h)
      (by rintro _ _ _ _ - - - ⟨⟩) h
  | or a b c =>
    exact binaryEffect rfl rfl rfl (by simp) (by simp) (by rintro _ _ _ ⟨⟩ h h'; exact or_le h h')
      (by rintro _ _ _ _ - - - ⟨⟩) h
  | not a b =>
    exact unaryEffect rfl rfl rfl (by simp) (by simp) (by rintro _ _ ⟨⟩ -; exact complementWord_le _)
      (by rintro _ _ _ - - ⟨⟩) h
  | rmem a b =>
    refine unaryEffect rfl rfl rfl (by simp) (by simp) (fun vb v hv _ => ?_) (fun d vb e hd hb he => ?_) h
    · obtain ⟨w, -, hw⟩ := bind_eq_ok.1 hv
      split at hw
      · cases hw
      · rw [Except.ok.injEq] at hw
        exact hw ▸ Nat.not_lt.1 ‹_›
    · subst hd
      rcases bind_eq_error.1 he with he | ⟨w, hm, hw⟩
      · obtain ⟨ha, rfl⟩ := State.memRead_eq_error.1 he
        exact .address _ ha (.inl vb.isLt) ⟨.reg d, b, b, by simp⟩
      · split at hw
        · rw [Except.error.injEq] at hw
          exact hw ▸ .stored d b vb w rfl hb (State.memRead_eq_ok.1 hm).2 ‹_›
        · cases hw
  | wmem a b =>
    rcases execWmem_next h with ⟨x, v, ha, hb, hx, rfl⟩ | ⟨e, rfl, h | ⟨x, ha, h | ⟨hx, rfl⟩⟩⟩
    · exact .stored a b x v rfl ha hb hx
    · exact .fault e (sourceFault (by simp [Instr.sources]) h)
    · exact .fault e (sourceFault (by simp [Instr.sources]) h)
    · exact .fault _ (.address _ (.inl hx) (.inl x.isLt) ⟨.reg 0, a, b, by simp [ha, hx]⟩)
  | call a =>
    rcases execCall_next h with ⟨v, ha, hr, hv, hm, hf, rfl⟩ | ⟨e, rfl, h | ⟨v, -, ⟨hr, rfl⟩ | ⟨-, h⟩ | ⟨hr, hf, rfl⟩⟩⟩
    · exact .called a v rfl ha hr hv hm hf
    · exact .fault e (sourceFault (by simp [Instr.sources]) h)
    · exact .fault _ (.address _ (.inl hr) (.inr rfl) ⟨.reg 0, a, a, by simp⟩)
    · exact .fault e (jumpFault (⟨.reg 0, a, a, by simp⟩) h)
    · exact .fault _ (.full a _ (.inr ⟨rfl, rfl⟩) hf (by omega))
  | ret =>
    rcases execRet_next h with ⟨v, rest, hs, hv, hm, rfl⟩ | ⟨e, rfl, ⟨hs, rfl⟩ | ⟨v, rest, -, hv, rfl⟩⟩
    · exact .returned v rest rfl hs hv hm
    · exact .fault _ (.ret rfl hs)
    · exact .fault _ (jumpFault (⟨.reg 0, .reg 0, .reg 0, by simp⟩) (State.jumpTo_eq_error.2 ⟨hv, rfl⟩))
  | out a =>
    rcases execOut_next h with ⟨c, ha, rfl⟩ | ⟨e, rfl, he⟩
    · exact .emitted a c rfl ha
    · exact .fault e (sourceFault (by simp [Instr.sources]) he)
  | in_ a =>
    rcases execIn_next h with ⟨e, he, rfl⟩ | ⟨d, rfl, hin, rfl⟩ | ⟨d, c, u, rfl, hin, hc, rfl⟩ | ⟨d, ev, u, e, rfl, hin, rfl, he⟩
    · exact .fault e (destFault rfl he)
    · exact .hold d rfl hin
    · exact .took d c u rfl hin hc
    · exact .inputFault d ev u e rfl hin he
  | noop =>
    rw [← show s.advance 1 = t by simpa [exec, execNoop] using h]
    exact .skipped (.inl rfl)

end Sys2Proof.Machine
end

