-- ==== Sys2Proof/Laws/PerInstr.lean ====
section
/-! SUPPORT. Facts about every instruction as syntax, one lemma per constructor: the family `EncodingLength` (R61, R69) and the family
`OperandsDecode` (R63, R64: the operand words of a well-formed instruction decode, after its opcode word, to the instruction). -/

namespace Sys2Proof.Laws

/-- An instruction has 1 to 4 words, and as many as its format says. -/
def EncodingLength.Statement (i : Instr) : Prop :=
  (encode i).length = i.length ∧ 1 ≤ i.length ∧ i.length ≤ Config.maxLength

/-- After its opcode word, a well-formed instruction's operand words decode to it and leave what follows them. -/
def OperandsDecode.Statement (i : Instr) : Prop :=
  i.wellFormed = true → ∀ rest, i.op.operands (i.operandWords ++ rest) = .ok (i, rest)

theorem EncodingLength.halt : Statement .halt := by simp [Statement, encode, Instr.length, Instr.operandWords]

theorem EncodingLength.set (a : Dst) (b : Src) : Statement (.set a b) := by simp [Statement, encode, Instr.length, Instr.operandWords, Config.maxLength]

theorem EncodingLength.push (a : Src) : Statement (.push a) := by simp [Statement, encode, Instr.length, Instr.operandWords, Config.maxLength]

theorem EncodingLength.pop (a : Dst) : Statement (.pop a) := by simp [Statement, encode, Instr.length, Instr.operandWords, Config.maxLength]

theorem EncodingLength.eq (a : Dst) (b : Src) (c : Src) : Statement (.eq a b c) := by simp [Statement, encode, Instr.length, Instr.operandWords, Config.maxLength]

theorem EncodingLength.gt (a : Dst) (b : Src) (c : Src) : Statement (.gt a b c) := by simp [Statement, encode, Instr.length, Instr.operandWords, Config.maxLength]

theorem EncodingLength.jmp (a : Src) : Statement (.jmp a) := by simp [Statement, encode, Instr.length, Instr.operandWords, Config.maxLength]

theorem EncodingLength.jt (a : Src) (b : Src) : Statement (.jt a b) := by simp [Statement, encode, Instr.length, Instr.operandWords, Config.maxLength]

theorem EncodingLength.jf (a : Src) (b : Src) : Statement (.jf a b) := by simp [Statement, encode, Instr.length, Instr.operandWords, Config.maxLength]

theorem EncodingLength.add (a : Dst) (b : Src) (c : Src) : Statement (.add a b c) := by simp [Statement, encode, Instr.length, Instr.operandWords, Config.maxLength]

theorem EncodingLength.mult (a : Dst) (b : Src) (c : Src) : Statement (.mult a b c) := by simp [Statement, encode, Instr.length, Instr.operandWords, Config.maxLength]

theorem EncodingLength.mod (a : Dst) (b : Src) (c : Src) : Statement (.mod a b c) := by simp [Statement, encode, Instr.length, Instr.operandWords, Config.maxLength]

theorem EncodingLength.and (a : Dst) (b : Src) (c : Src) : Statement (.and a b c) := by simp [Statement, encode, Instr.length, Instr.operandWords, Config.maxLength]

theorem EncodingLength.or (a : Dst) (b : Src) (c : Src) : Statement (.or a b c) := by simp [Statement, encode, Instr.length, Instr.operandWords, Config.maxLength]

theorem EncodingLength.not (a : Dst) (b : Src) : Statement (.not a b) := by simp [Statement, encode, Instr.length, Instr.operandWords, Config.maxLength]

theorem EncodingLength.rmem (a : Dst) (b : Src) : Statement (.rmem a b) := by simp [Statement, encode, Instr.length, Instr.operandWords, Config.maxLength]

theorem EncodingLength.wmem (a : Src) (b : Src) : Statement (.wmem a b) := by simp [Statement, encode, Instr.length, Instr.operandWords, Config.maxLength]

theorem EncodingLength.call (a : Src) : Statement (.call a) := by simp [Statement, encode, Instr.length, Instr.operandWords, Config.maxLength]

theorem EncodingLength.ret : Statement .ret := by simp [Statement, encode, Instr.length, Instr.operandWords]

theorem EncodingLength.out (a : Src) : Statement (.out a) := by simp [Statement, encode, Instr.length, Instr.operandWords, Config.maxLength]

theorem EncodingLength.in_ (a : Dst) : Statement (.in_ a) := by simp [Statement, encode, Instr.length, Instr.operandWords, Config.maxLength]

theorem EncodingLength.noop : Statement .noop := by simp [Statement, encode, Instr.length, Instr.operandWords]

theorem OperandsDecode.halt : Statement .halt := fun _ _ => rfl

theorem OperandsDecode.set (a : Dst) (b : Src) : Statement (.set a b) := by
  intro h rest
  have ⟨ha, hb⟩ : a.wf = true ∧ b.wf = true := by simpa [Instr.wellFormed, Instr.destination, Instr.sources] using h
  simp [Instr.op, Instr.operandWords, Op.operands, operands2, Dst.ofWord_word ha, Src.ofWord_word hb]

theorem OperandsDecode.push (a : Src) : Statement (.push a) := by
  intro h rest
  have ha : a.wf = true := by simpa [Instr.wellFormed, Instr.destination, Instr.sources] using h
  simp [Instr.op, Instr.operandWords, Op.operands, operands1, Src.ofWord_word ha]

theorem OperandsDecode.pop (a : Dst) : Statement (.pop a) := by
  intro h rest
  have ha : a.wf = true := by simpa [Instr.wellFormed, Instr.destination, Instr.sources] using h
  simp [Instr.op, Instr.operandWords, Op.operands, operands1, Dst.ofWord_word ha]

theorem OperandsDecode.eq (a : Dst) (b : Src) (c : Src) : Statement (.eq a b c) := by
  intro h rest
  have ⟨ha, hb, hc⟩ : a.wf = true ∧ b.wf = true ∧ c.wf = true := by simpa [Instr.wellFormed, Instr.destination, Instr.sources] using h
  simp [Instr.op, Instr.operandWords, Op.operands, operands3, Dst.ofWord_word ha, Src.ofWord_word hb, Src.ofWord_word hc]

theorem OperandsDecode.gt (a : Dst) (b : Src) (c : Src) : Statement (.gt a b c) := by
  intro h rest
  have ⟨ha, hb, hc⟩ : a.wf = true ∧ b.wf = true ∧ c.wf = true := by simpa [Instr.wellFormed, Instr.destination, Instr.sources] using h
  simp [Instr.op, Instr.operandWords, Op.operands, operands3, Dst.ofWord_word ha, Src.ofWord_word hb, Src.ofWord_word hc]

theorem OperandsDecode.jmp (a : Src) : Statement (.jmp a) := by
  intro h rest
  have ha : a.wf = true := by simpa [Instr.wellFormed, Instr.destination, Instr.sources] using h
  simp [Instr.op, Instr.operandWords, Op.operands, operands1, Src.ofWord_word ha]

theorem OperandsDecode.jt (a : Src) (b : Src) : Statement (.jt a b) := by
  intro h rest
  have ⟨ha, hb⟩ : a.wf = true ∧ b.wf = true := by simpa [Instr.wellFormed, Instr.destination, Instr.sources] using h
  simp [Instr.op, Instr.operandWords, Op.operands, operands2, Src.ofWord_word ha, Src.ofWord_word hb]

theorem OperandsDecode.jf (a : Src) (b : Src) : Statement (.jf a b) := by
  intro h rest
  have ⟨ha, hb⟩ : a.wf = true ∧ b.wf = true := by simpa [Instr.wellFormed, Instr.destination, Instr.sources] using h
  simp [Instr.op, Instr.operandWords, Op.operands, operands2, Src.ofWord_word ha, Src.ofWord_word hb]

theorem OperandsDecode.add (a : Dst) (b : Src) (c : Src) : Statement (.add a b c) := by
  intro h rest
  have ⟨ha, hb, hc⟩ : a.wf = true ∧ b.wf = true ∧ c.wf = true := by simpa [Instr.wellFormed, Instr.destination, Instr.sources] using h
  simp [Instr.op, Instr.operandWords, Op.operands, operands3, Dst.ofWord_word ha, Src.ofWord_word hb, Src.ofWord_word hc]

theorem OperandsDecode.mult (a : Dst) (b : Src) (c : Src) : Statement (.mult a b c) := by
  intro h rest
  have ⟨ha, hb, hc⟩ : a.wf = true ∧ b.wf = true ∧ c.wf = true := by simpa [Instr.wellFormed, Instr.destination, Instr.sources] using h
  simp [Instr.op, Instr.operandWords, Op.operands, operands3, Dst.ofWord_word ha, Src.ofWord_word hb, Src.ofWord_word hc]

theorem OperandsDecode.mod (a : Dst) (b : Src) (c : Src) : Statement (.mod a b c) := by
  intro h rest
  have ⟨ha, hb, hc⟩ : a.wf = true ∧ b.wf = true ∧ c.wf = true := by simpa [Instr.wellFormed, Instr.destination, Instr.sources] using h
  simp [Instr.op, Instr.operandWords, Op.operands, operands3, Dst.ofWord_word ha, Src.ofWord_word hb, Src.ofWord_word hc]

theorem OperandsDecode.and (a : Dst) (b : Src) (c : Src) : Statement (.and a b c) := by
  intro h rest
  have ⟨ha, hb, hc⟩ : a.wf = true ∧ b.wf = true ∧ c.wf = true := by simpa [Instr.wellFormed, Instr.destination, Instr.sources] using h
  simp [Instr.op, Instr.operandWords, Op.operands, operands3, Dst.ofWord_word ha, Src.ofWord_word hb, Src.ofWord_word hc]

theorem OperandsDecode.or (a : Dst) (b : Src) (c : Src) : Statement (.or a b c) := by
  intro h rest
  have ⟨ha, hb, hc⟩ : a.wf = true ∧ b.wf = true ∧ c.wf = true := by simpa [Instr.wellFormed, Instr.destination, Instr.sources] using h
  simp [Instr.op, Instr.operandWords, Op.operands, operands3, Dst.ofWord_word ha, Src.ofWord_word hb, Src.ofWord_word hc]

theorem OperandsDecode.not (a : Dst) (b : Src) : Statement (.not a b) := by
  intro h rest
  have ⟨ha, hb⟩ : a.wf = true ∧ b.wf = true := by simpa [Instr.wellFormed, Instr.destination, Instr.sources] using h
  simp [Instr.op, Instr.operandWords, Op.operands, operands2, Dst.ofWord_word ha, Src.ofWord_word hb]

theorem OperandsDecode.rmem (a : Dst) (b : Src) : Statement (.rmem a b) := by
  intro h rest
  have ⟨ha, hb⟩ : a.wf = true ∧ b.wf = true := by simpa [Instr.wellFormed, Instr.destination, Instr.sources] using h
  simp [Instr.op, Instr.operandWords, Op.operands, operands2, Dst.ofWord_word ha, Src.ofWord_word hb]

theorem OperandsDecode.wmem (a : Src) (b : Src) : Statement (.wmem a b) := by
  intro h rest
  have ⟨ha, hb⟩ : a.wf = true ∧ b.wf = true := by simpa [Instr.wellFormed, Instr.destination, Instr.sources] using h
  simp [Instr.op, Instr.operandWords, Op.operands, operands2, Src.ofWord_word ha, Src.ofWord_word hb]

theorem OperandsDecode.call (a : Src) : Statement (.call a) := by
  intro h rest
  have ha : a.wf = true := by simpa [Instr.wellFormed, Instr.destination, Instr.sources] using h
  simp [Instr.op, Instr.operandWords, Op.operands, operands1, Src.ofWord_word ha]

theorem OperandsDecode.ret : Statement .ret := fun _ _ => rfl

theorem OperandsDecode.out (a : Src) : Statement (.out a) := by
  intro h rest
  have ha : a.wf = true := by simpa [Instr.wellFormed, Instr.destination, Instr.sources] using h
  simp [Instr.op, Instr.operandWords, Op.operands, operands1, Src.ofWord_word ha]

theorem OperandsDecode.in_ (a : Dst) : Statement (.in_ a) := by
  intro h rest
  have ha : a.wf = true := by simpa [Instr.wellFormed, Instr.destination, Instr.sources] using h
  simp [Instr.op, Instr.operandWords, Op.operands, operands1, Dst.ofWord_word ha]

theorem OperandsDecode.noop : Statement .noop := fun _ _ => rfl

end Sys2Proof.Laws
end

