-- ==== Sys2Proof/Laws/Session.lean ====
section
/-! SUPPORT. What each action of the host can answer, said once. -/

namespace Sys2Proof.Machine

/-- A core that holds is Running, at an `in` with a register destination, with no event to take (R87, R181). -/
theorem State.holding_eq_true {s : State} :
    s.holding = true ↔ s.status = .running ∧ (∃ d, s.fetch = .ok (.in_ (.reg d))) ∧ s.takeInput = none := by
  unfold State.holding
  split
  · rename_i d hs hf
    simp [hs, hf]
  · rename_i hno
    simp only [Bool.false_eq_true, false_iff, not_and, not_exists]
    rintro hs ⟨d, hf⟩
    exact absurd hf (hno d hs)

theorem InputItem.hasEvent_eq_true {x : InputItem} : x.hasEvent = true ↔ x ≠ .line [] := by
  rcases x with ⟨_ | ⟨c, codes⟩⟩ | _ <;> simp [InputItem.hasEvent]

/-- A delivery is possible exactly at a hold, with an event, and supplies it. -/
theorem State.deliver_eq_some {s u : State} {x : InputItem} :
    s.deliver x = some u ↔ (s.holding = true ∧ x ≠ .line []) ∧ u = s.supply x := by
  rw [State.deliver, ← InputItem.hasEvent_eq_true, ← Bool.and_eq_true]
  split
  · rw [Option.some.injEq, eq_comm, and_iff_right ‹_›]
  · simp [‹¬ _›]

/-- During a run the host can only deliver, and the run goes on. -/
theorem Session.act_inRun {h k : Session} {a : HostAction} (hp : h.phase = .inRun) (ha : h.act a = some k) :
    k.phase = .inRun ∧ ∃ x, a = .deliver x ∧ h.core.deliver x = some k.core := by
  cases a with
  | load image => simp [Session.act, Session.load, hp] at ha
  | run => simp [Session.act, Session.run, hp] at ha
  | deliver x =>
    simp only [Session.act, Session.deliver, hp, Option.map_eq_some_iff] at ha
    obtain ⟨t, ht, rfl⟩ := ha
    exact ⟨rfl, x, rfl, ht⟩

/-- A session steps only during a run, by the core's own step, and leaves it with the step that ends it. -/
theorem Session.step_eq_some {h k : Session} (hk : h.step = some k) :
    h.phase = .inRun ∧ Machine.step h.core = .next k.core ∧ k.phase = if k.core.ended then .returned else .inRun := by
  unfold Session.step at hk
  split at hk
  · rename_i hp
    split at hk
    · cases hk
      exact ⟨hp, by assumption, rfl⟩
    · cases hk
    · cases hk
  all_goals cases hk

end Sys2Proof.Machine
end

