-- ==== Sys2Proof/Tests/Slice0.lean ====
section
/-! SUPPORT. The model's own tests: what well-formedness refuses, one written-out word list for every constructor, small steps whose
results are the spec's (95_test_vectors.md, or the example of the instruction's rule), and for every statement with
hypotheses a witness that meets them. -/

namespace Sys2Proof.Tests

open Sys2Proof.Machine Sys2Proof.Claims

/-- Reset with these words loaded from address 0 (R231). -/
def program (ws : List Word) : State := { State.reset with mem := Memory.ofImage 0 ws }

/-- Whether an answer is a next state that passes a check. -/
def after (o : Result) (check : State → Bool) : Bool :=
  match o with
  | .next t => check t
  | .fault _ => false
  | .refused _ => false

/-- Whether a step records this fault and keeps the pc (R203). -/
def faults (s : State) (k : FaultKind) (info : Nat) : Bool :=
  after (step s) fun t => decide (t.status = .faulted ⟨k, s.pc, info⟩) && decide (t.pc = s.pc) && decide (t.regs = s.regs) && decide (t.stack = s.stack)

/-! ### Well-formedness refuses -/

/-- R64: 40000 is no literal. -/
theorem test_wf_refuses_large_literal : (Instr.push (.lit 40000)).wellFormed = false := by decide

/-- R64: 5 is a literal and 32775 a register, neither is out of range. -/
theorem test_wf_refuses_small_out_of_range :
    (Instr.jt (.lit 1) (.outOfRange 5)).wellFormed = false ∧ (Instr.out (.outOfRange 32775)).wellFormed = false := by decide

/-- R66: 32770 names r2. -/
theorem test_wf_refuses_register_word_as_no_register : (Instr.pop (.notRegister 32770)).wellFormed = false := by decide

/-- R68: an operand word invalid for its role still belongs to a well-formed instruction. -/
theorem test_wf_admits_faulting_operands : (Instr.set (.notRegister 5) (.outOfRange 32776)).wellFormed = true := by decide

/-! ### Decoding, from the encodings of R63 -/

theorem test_decode_halt : decode [0] = .ok (.halt, []) := rfl
theorem test_decode_set : decode [1, 32768, 32775] = .ok (.set (.reg 0) (.reg 7), []) := rfl
theorem test_decode_push : decode [2, 32769] = .ok (.push (.reg 1), []) := rfl
theorem test_decode_pop : decode [3, 32770] = .ok (.pop (.reg 2), []) := rfl
theorem test_decode_eq : decode [4, 32768, 32769, 7] = .ok (.eq (.reg 0) (.reg 1) (.lit 7), []) := rfl
theorem test_decode_gt : decode [5, 32768, 5, 3] = .ok (.gt (.reg 0) (.lit 5) (.lit 3), []) := rfl
theorem test_decode_jmp : decode [6, 10] = .ok (.jmp (.lit 10), []) := rfl
theorem test_decode_jt : decode [7, 32768, 100] = .ok (.jt (.reg 0) (.lit 100), []) := rfl
theorem test_decode_jf : decode [8, 32768, 3] = .ok (.jf (.reg 0) (.lit 3), []) := rfl
theorem test_decode_add : decode [9, 32768, 32758, 15] = .ok (.add (.reg 0) (.lit 32758) (.lit 15), []) := rfl
theorem test_decode_mult : decode [10, 32768, 300, 200] = .ok (.mult (.reg 0) (.lit 300) (.lit 200), []) := rfl
theorem test_decode_mod : decode [11, 32768, 17, 5] = .ok (.mod (.reg 0) (.lit 17) (.lit 5), []) := rfl
theorem test_decode_and : decode [12, 32768, 12, 10] = .ok (.and (.reg 0) (.lit 12) (.lit 10), []) := rfl
theorem test_decode_or : decode [13, 32768, 12, 10] = .ok (.or (.reg 0) (.lit 12) (.lit 10), []) := rfl
theorem test_decode_not : decode [14, 32768, 21845] = .ok (.not (.reg 0) (.lit 21845), []) := rfl
theorem test_decode_rmem : decode [15, 32769, 100] = .ok (.rmem (.reg 1) (.lit 100), []) := rfl
theorem test_decode_wmem : decode [16, 100, 1234] = .ok (.wmem (.lit 100) (.lit 1234), []) := rfl
theorem test_decode_call : decode [17, 9] = .ok (.call (.lit 9), []) := rfl
theorem test_decode_ret : decode [18] = .ok (.ret, []) := rfl
theorem test_decode_out : decode [19, 32768] = .ok (.out (.reg 0), []) := rfl
theorem test_decode_in : decode [20, 32770] = .ok (.in_ (.reg 2), []) := rfl
theorem test_decode_noop : decode [21] = .ok (.noop, []) := rfl

/-- R62, R68: the opcode word is not resolved, and 22 to 65535 select nothing. -/
theorem test_decode_invalid_opcodes :
    decode [22] = .error (.invalidOpcode 22) ∧ decode [32768, 0] = .error (.invalidOpcode 32768) ∧
    decode [65535] = .error (.invalidOpcode 65535) := ⟨rfl, rfl, rfl⟩

/-- The table's numbering of bits: 1, then 32769 in bits 31 to 16, then 4 in bits 47 to 32. -/
theorem test_decode_table_word :
    decodeTableWord 48 (1 + 32769 * 65536 + 4 * 4294967296) = some (.set (.reg 1) (.lit 4)) ∧
    decodeTableWord 16 1 = some (.set (.notRegister 0) (.lit 0)) ∧ decodeTableWord 16 22 = none := ⟨rfl, rfl, rfl⟩

/-- Placing the word for `noop` makes the first step after reset run it. -/
theorem test_placed_noop_runs : after (step (State.reset.withFetchWord 16 21)) (fun t => decide (t.pc = 1)) = true := by decide

/-! ### Operand resolution (the vectors of R64 to R66, with x[i] = 100 + i) -/

def hundreds : State := { State.reset with regs := ⟨100, 101, 102, 103, 104, 105, 106, 107⟩ }

theorem test_value_vectors :
    [0, 5, 32767, 32768, 32771, 32775, 32776, 65535].map (fun w => hundreds.value (Src.ofWord w)) =
      [.ok 0, .ok 5, .ok 32767, .ok 100, .ok 103, .ok 107, .error ⟨.operandOutOfRange, 32776⟩, .error ⟨.operandOutOfRange, 65535⟩] := by decide

theorem test_dest_vectors :
    [0, 32767, 32768, 32771, 32775, 32776].map (fun w => destIndex (Dst.ofWord w)) =
      [.error ⟨.invalidRegisterIndex, 0⟩, .error ⟨.invalidRegisterIndex, 32767⟩, .ok 0, .ok 3, .ok 7, .error ⟨.invalidRegisterIndex, 32776⟩] := by decide

/-! ### Engine vectors -/

theorem test_empty_image : faults (program []) .addressingError 0 = true := by decide

theorem test_missing_operand_word : faults (program [1, 32768]) .addressingError 2 = true := by decide

theorem test_first_operand_examined_first :
    faults (program [9, 32776, 32776, 0]) .invalidRegisterIndex 32776 = true ∧
    faults (program [9, 32768, 32776, 40000]) .operandOutOfRange 32776 = true := by decide

/-- R28: no step leaves Halted. -/
theorem test_halted_takes_no_step :
    after (step { program [21] with status := .halted }) (fun _ => true) = false := by decide

/-! ### One or two steps' worth for each instruction -/

theorem test_halt : after (step (program [0])) (fun t => decide (t.status = .halted) && decide (t.pc = 1)) = true := by decide

/-- W3: a register that is its own source. -/
theorem test_set_self :
    after (step { program [1, 32768, 32768] with regs := ⟨5, 0, 0, 0, 0, 0, 0, 0⟩ }) (fun t => decide (t.reg 0 = 5) && decide (t.pc = 3)) = true := by
  decide

theorem test_push_register :
    after (step { program [2, 32769] with regs := ⟨0, 300, 0, 0, 0, 0, 0, 0⟩ }) (fun t => decide (t.stack = [300])) = true := by decide

theorem test_push_overflow : faults { program [2, 1] with stack := [4], stackCapacity := some 1 } .stackOverflow 1 = true := by decide

theorem test_pop : after (step { program [3, 32770] with stack := [7, 9] }) (fun t => decide (t.reg 2 = 7) && decide (t.stack = [9])) = true := by
  decide

theorem test_pop_faults :
    faults (program [3, 32770]) .stackUnderflow 3 = true ∧ faults (program [3, 5]) .invalidRegisterIndex 5 = true := by decide

theorem test_eq : after (step { program [4, 32769, 32769, 0] with regs := State.reset.regs }) (fun t => decide (t.reg 1 = 1)) = true := by decide

theorem test_gt_unsigned :
    after (step (program [5, 32768, 32767, 0])) (fun t => decide (t.reg 0 = 1)) = true ∧
    after (step (program [5, 32768, 0, 32767])) (fun t => decide (t.reg 0 = 0)) = true := by decide

theorem test_jmp : after (step (program [6, 2, 0])) (fun t => decide (t.pc = 2)) = true := by decide

theorem test_jmp_unallocated : faults (program [6, 50]) .addressingError 50 = true := by decide

theorem test_jt_not_taken : after (step (program [7, 32768, 100])) (fun t => decide (t.pc = 3)) = true := by decide

theorem test_jt_taken_and_unused_operand :
    after (step (program [7, 32767, 3, 0])) (fun t => decide (t.pc = 3)) = true ∧
    faults (program [7, 0, 40000]) .operandOutOfRange 40000 = true := by decide

theorem test_jf : after (step (program [8, 32768, 4, 0, 0])) (fun t => decide (t.pc = 4)) = true := by decide

theorem test_jf_not_taken : after (step (program [8, 1, 100])) (fun t => decide (t.pc = 3)) = true := by decide

theorem test_add_wraps :
    after (step (program [9, 32768, 32767, 32767])) (fun t => decide (t.reg 0 = 32766) && decide (t.pc = 4)) = true := by decide

theorem test_mult_exact :
    after (step (program [10, 32768, 32767, 32767])) (fun t => decide (t.reg 0 = 1)) = true ∧
    after (step (program [10, 32768, 300, 200])) (fun t => decide (t.reg 0 = 27232)) = true := by decide

theorem test_mod : after (step (program [11, 32768, 17, 5])) (fun t => decide (t.reg 0 = 2)) = true := by decide

theorem test_mod_zero_divisor : faults (program [11, 32768, 17, 32769]) .arithmeticError 32769 = true := by decide

theorem test_and : after (step (program [12, 32768, 12, 10])) (fun t => decide (t.reg 0 = 8)) = true := by decide

theorem test_or : after (step (program [13, 32768, 12, 10])) (fun t => decide (t.reg 0 = 14)) = true := by decide

theorem test_not : after (step (program [14, 32768, 21845])) (fun t => decide (t.reg 0 = 10922)) = true := by decide

/-- The cell whose address r0 held, then r0 overwritten. -/
theorem test_rmem_self : after (step (program [15, 32768, 32768])) (fun t => decide (t.reg 0 = 15)) = true := by decide

theorem test_rmem_faults :
    faults (program [15, 32768, 1]) .valueOutOfRange 32768 = true ∧ faults (program [15, 32768, 50]) .addressingError 50 = true := by decide

theorem test_wmem_allocates :
    after (step (program [16, 100, 1234])) (fun t => decide (t.mem.read 100 = some 1234) && decide (t.mem.read 50 = none)) = true := by decide

/-- R162's example, `call 9` at 3. -/
theorem test_call :
    after (step { program [0, 0, 0, 17, 9, 0, 0, 0, 0, 0] with pc := 3 }) (fun t => decide (t.stack = [5]) && decide (t.pc = 9)) = true := by decide

/-- D9: the return address 32768 names no cell. -/
theorem test_call_at_top :
    faults { program [0] with pc := 32766, mem := [(0, 0), (32766, 17), (32767, 0)] } .addressingError 32768 = true := by decide

theorem test_ret : after (step { program [18, 0, 0, 0, 0, 0] with stack := [5] }) (fun t => decide (t.pc = 5) && decide (t.stack = [])) = true := by
  decide

theorem test_ret_faults :
    faults (program [18]) .stackUnderflow 18 = true ∧ faults { program [18] with stack := [50] } .addressingError 50 = true := by decide

theorem test_out : after (step { program [19, 65] with output := [1] }) (fun t => decide (t.output = [1, 65])) = true := by decide

theorem test_in :
    after (step { program [20, 32770] with pendingInput := [.line [104, 105]] })
      (fun t => decide (t.reg 2 = 104) && decide (t.lineBuffer = [105]) && decide (t.pendingInput = [])) = true := by decide

theorem test_in_faults :
    faults { program [20, 32768] with pendingInput := [.endOfInput] } .inputEndOfFile 0 = true ∧
    faults { program [20, 32768] with lineBuffer := [40000] } .valueOutOfRange 40000 = true := by decide

theorem test_noop_at_top :
    after (step { program [21] with pc := 32767, mem := [(32767, 21)] }) (fun t => decide (t.pc = 32768)) = true := by decide

/-! ### Witnesses: concrete states and operands that meet each statement's hypotheses -/

theorem test_witness_DecodeOfEncode : (Instr.set (.notRegister 32776) (.lit 32767)).wellFormed = true := by decide

theorem test_witness_EncodeOfDecode : decode [6, 65535, 9] = .ok (.jmp (.outOfRange 65535), [9]) := rfl

theorem test_witness_OpcodeComparedRaw : 21 < (22 : Word).toNat ∧ (21 : Word).toNat ≤ 21 := by decide

theorem test_witness_LengthFromOpcodeAlone :
    ((4 : Word).toNat ≤ 21 ∧ arity (4 : Word).toNat ≤ [(1 : Word), 2, 3].length) ∧
    ((4 : Word).toNat ≤ 21 ∧ [(1 : Word), 2].length < arity (4 : Word).toNat) ∧ 21 < (22 : Word).toNat := by decide

theorem test_witness_ReadResolution : State.reset.Inv ∧ State.reset.value (Src.ofWord 32767) = .ok 32767 := by decide

theorem test_witness_StepRunsDecodedInstruction :
    (program [19, 65]).status = .running ∧ (Instr.out (.lit 65)).wellFormed = true ∧ PlacedAtPc (program [19, 65]) (.out (.lit 65)) := by
  refine ⟨rfl, by decide, ?_⟩
  rintro (_ | _ | k) w h
  · cases h
    rfl
  · cases h
    rfl
  · simp [encode, Instr.operandWords] at h

theorem test_witness_PlacedInstructionRunsNext :
    State.reset.pc.toNat ≤ 32764 ∧ decodeTableWord 16 0 = some .halt ∧
    ({ State.reset with pc := 32764 } : State).pc.toNat ≤ 32764 := by decide

theorem test_witness_FetchFaultsInOrder :
    (program []).memRead 0 = .error ⟨.addressingError, 0⟩ ∧ (program [22]).memRead 0 = .ok 22 ∧ 21 < (22 : Word).toNat ∧
    ((program [6]).memRead 0 = .ok 6 ∧ 1 ≤ arity (6 : Word).toNat ∧ (program [6]).memRead 1 = .error ⟨.addressingError, 1⟩) ∧
    ((program [4, 0, 0]).memRead 0 = .ok 4 ∧ 3 ≤ arity (4 : Word).toNat ∧ (program [4, 0, 0]).memRead 1 = .ok 0 ∧
      (program [4, 0, 0]).memRead 2 = .ok 0 ∧ (program [4, 0, 0]).memRead 3 = .error ⟨.addressingError, 3⟩) := by
  refine ⟨rfl, rfl, by decide, ⟨rfl, by decide, rfl⟩, rfl, by decide, rfl, rfl, rfl⟩

theorem test_witness_StepTakenOnlyWhileRunning :
    State.reset.status = .running ∧ ({ State.reset with status := .halted } : State).status = .halted ∧
    (State.reset.raise ⟨.arithmeticError, 0⟩).status = .faulted ⟨.arithmeticError, 0, 0⟩ := by decide

theorem test_witness_StepTakenOnlyWhileRunning_session : ∃ k, (⟨program [21], .inRun⟩ : Session).step = some k := ⟨_, rfl⟩

theorem test_witness_StepOutcomes :
    (program [21]).status = .running ∧ (∃ t, step (program [21]) = .next t) ∧ (program [20, 32768]).holding = true :=
  ⟨rfl, ⟨_, rfl⟩, by decide⟩

theorem test_witness_FaultsArePrecise :
    (program [3, 32768]).status = .running ∧
    step (program [3, 32768]) = .next ((program [3, 32768]).raise ⟨.stackUnderflow, 3⟩) ∧
    ((program [3, 32768]).raise ⟨.stackUnderflow, 3⟩).status = .faulted ⟨.stackUnderflow, 0, 3⟩ := ⟨rfl, rfl, rfl⟩

/-- The clauses that speak of `in`: a faulting `in` with an event, and a faulting step that is no `in`. -/
theorem test_witness_FaultsArePrecise_input :
    ({ program [20, 32768] with pendingInput := [.endOfInput] } : State).fetch = .ok (.in_ (.reg 0)) ∧
    faults { program [20, 32768] with pendingInput := [.endOfInput] } .inputEndOfFile 0 = true ∧
    (program [3, 32768]).fetch = .ok (.pop (.reg 0)) := by decide

/-- The fetch clause of every instruction's rule: the opcode word missing, and the last of three operand words missing. -/
theorem test_witness_FetchFaults :
    (∀ v, (program []).memRead ((program []).pc.toNat + 0) ≠ .ok v) ∧
    (program [9, 32768, 1]).memRead (program [9, 32768, 1]).pc.toNat = .ok 9 ∧
    (∀ j, j < 3 → ∃ v, (program [9, 32768, 1]).memRead ((program [9, 32768, 1]).pc.toNat + j) = .ok v) ∧
    (∀ v, (program [9, 32768, 1]).memRead ((program [9, 32768, 1]).pc.toNat + 3) ≠ .ok v) := by
  refine ⟨fun v h => (by cases h), rfl, fun j hj => ?_, fun v h => (by cases h)⟩
  have : j = 0 ∨ j = 1 ∨ j = 2 := by omega
  obtain rfl | rfl | rfl := this <;> exact ⟨_, rfl⟩

/-- A step to each of the nine kinds of fault. -/
theorem test_witness_FaultKindsHaveTheirCauses :
    faults (program [22]) .invalidOpcode 22 = true ∧ faults (program [19, 32776]) .operandOutOfRange 32776 = true ∧
    faults (program [20, 5]) .invalidRegisterIndex 5 = true ∧ faults (program [18]) .stackUnderflow 18 = true ∧
    faults (program [11, 32768, 17, 0]) .arithmeticError 0 = true ∧ faults (program [6, 50]) .addressingError 50 = true ∧
    faults (program [15, 32768, 1]) .valueOutOfRange 32768 = true ∧
    faults { program [20, 32768] with pendingInput := [.endOfInput] } .inputEndOfFile 0 = true ∧
    faults { program [17, 0] with stackCapacity := some 0 } .stackOverflow 2 = true ∧
    (program [6, 50]).fetch = .ok (.jmp (.lit 50)) ∧ (program [6, 50]).Inv := by decide

theorem test_witness_StepKeepsInvariant : (program [2, 32767]).Inv ∧ ∃ t, step (program [2, 32767]) = .next t := ⟨by decide, _, rfl⟩

theorem test_witness_LoadStartsFreshRun :
    [(0 : Word)].length ≤ 32768 ∧ (List.replicate 32768 (0 : Word)).length ≤ 32768 ∧ 32768 < (List.replicate 32769 (0 : Word)).length := by
  simp only [List.length_replicate]
  decide

/-- The two kinds of session the load's clauses speak of. -/
theorem test_witness_LoadStartsFreshRun_session :
    (⟨State.reset, .inRun⟩ : Session).phase = .inRun ∧ (Session.construct false).phase ≠ .inRun ∧ (Session.construct false).core = State.reset := by
  decide

theorem test_witness_MemoryReadAndWrite :
    (program [7]).mem.read 0 = some 7 ∧ (program [7]).mem.read 32767 = none ∧ (program [7]).mem.wf = true ∧ 32767 < 32768 ∧ 32768 ≤ 32768 := by decide

theorem test_witness_CanonicalMemoryIsUnique : (program [7, 8]).mem.wf = true := by decide

theorem test_witness_AllocationNeverUndone :
    (∃ t, step (program [16, 100, 1]) = .next t ∧ t.mem.read 100 ≠ none) ∧ (program [16, 100, 1]).mem.read 100 = none ∧
    (program [16, 100, 1]).mem.read 0 ≠ none := ⟨⟨_, rfl, by decide⟩, by decide, by decide⟩

theorem test_witness_RegisterInstructionsFrame : ∃ t, exec (.rmem (.reg 1) (.lit 0)) (program [7]) = .next t := ⟨_, rfl⟩

theorem test_witness_WmemFrame :
    (∃ t, exec (.wmem (.lit 9) (.lit 1)) State.reset = .next t) ∧ State.reset.value (.lit 9) = .ok 9 ∧
    State.reset.value (.outOfRange 32776) = .error ⟨.operandOutOfRange, 32776⟩ := ⟨⟨_, rfl⟩, rfl, rfl⟩

theorem test_witness_StackInstructionsFrame :
    (∃ t, exec (.push (.lit 3)) State.reset = .next t) ∧ ∃ t, exec .ret { program [0] with stack := [0] } = .next t := ⟨⟨_, rfl⟩, ⟨_, rfl⟩⟩

theorem test_witness_ControlInstructionsFrame : ∃ t, exec (.jf (.lit 0) (.lit 0)) (program [0]) = .next t := ⟨_, rfl⟩

theorem test_witness_ChannelInstructionsFrame :
    (∃ t, exec (.out (.lit 3)) State.reset = .next t) ∧ ∃ t, exec (.in_ (.reg 3)) { State.reset with lineBuffer := [65] } = .next t :=
  ⟨⟨_, rfl⟩, ⟨_, rfl⟩⟩

/-- A step that writes a register, one that changes the stack, one that writes memory, one that emits, one that takes input. -/
theorem test_witness_EachStorageHasItsWriters :
    after (step (program [1, 32770, 4])) (fun t => decide (t.reg 2 ≠ 0)) = true ∧
    after (step (program [2, 4])) (fun t => decide (t.stack ≠ [])) = true ∧
    after (step (program [16, 100, 4])) (fun t => decide (t.mem ≠ (program [16, 100, 4]).mem)) = true ∧
    after (step (program [19, 4])) (fun t => decide (t.output ≠ [])) = true ∧
    after (step { program [20, 32768] with lineBuffer := [65] }) (fun t => decide (t.lineBuffer ≠ [65])) = true := by decide

theorem test_witness_PcAfterStep :
    (program [6, 0]).status = .running ∧ (program [6, 0]).fetch = .ok (.jmp (.lit 0)) ∧
    after (step (program [6, 0])) (fun t => decide (t.status = .running)) = true := ⟨rfl, rfl, by decide⟩

theorem test_witness_StepNeverReadsOutputLog : ∃ t, step { program [19, 65] with output := [4] } = .next t := ⟨_, rfl⟩

theorem test_witness_InputTakenInOrder :
    ({ State.reset with lineBuffer := [65] } : State).lineBuffer = [65] ∧
    (State.reset.supply (.line [65])).pendingInput = [.line [65]] ∧ (State.reset.supply (.line [65])).lineBuffer = [] ∧
    (State.reset.supply .endOfInput).pendingInput = [.endOfInput] ∧
    ((State.reset.supply (.line [65])).takeInput).isSome = true ∧
    ((State.reset.supply (.line [])).supply (.line [65])).pendingInput = [.line [], .line [65]] := by decide

theorem test_witness_HoldChangesNothing :
    (program [20, 32768]).status = .running ∧ (program [20, 32768]).holding = true ∧
    step (program [20, 32768]) = .next (program [20, 32768]) ∧ step (program [6, 0]) = .next (program [6, 0]) := ⟨rfl, by decide, rfl, rfl⟩

/-- A holding core, one that holds although a line without codes was supplied, and a run in progress in which a delivery is possible. -/
theorem test_witness_DeliveredEventLiftsHold :
    (program [20, 32770]).holding = true ∧ ((program [20, 32770]).supply (.line [])).holding = true ∧ 104 ≤ 32767 ∧
    ((program [20, 32770]).deliver (.line [104])).isSome = true ∧
    ((⟨program [20, 32770], .inRun⟩ : Session).act (.deliver .endOfInput)).isSome = true := by decide

/-! ### When the host can act (R211) -/

/-- No event can be delivered to a core that does not hold, and a line without codes is none. -/
theorem test_deliver_only_while_holding :
    (program [21]).deliver (.line [104]) = none ∧ (program [20, 5]).deliver (.line [104]) = none ∧
    (program [20, 32770]).deliver (.line []) = none := by decide

/-- `run()` only after a load, no load during a run, no delivery outside one. -/
theorem test_host_order :
    (Session.construct false).run = none ∧ (Session.construct true).deliver .endOfInput = none ∧
    ((Session.construct false).load [0]).bind Session.run = some ⟨program [0], .inRun⟩ ∧
    (⟨program [20, 32770], .inRun⟩ : Session).load [0] = none ∧ (⟨program [20, 32770], .loaded⟩ : Session).deliver .endOfInput = none := by decide

/-- W1 of 95_test_vectors.md: the run of `[0]` returns Halted, and a new load makes a new run possible. -/
theorem test_run_returns :
    ((⟨program [0], .inRun⟩ : Session).step.bind Session.finalStatus) = some .halted ∧ (⟨program [0], .inRun⟩ : Session).finalStatus = none ∧
    (((⟨program [0], .inRun⟩ : Session).step.bind fun k => k.load [21]).bind Session.run).isSome = true ∧
    ((⟨program [0], .inRun⟩ : Session).step.bind Session.run) = none := by decide

theorem test_witness_PushThenPopRestores :
    State.reset.value (.lit 9) = .ok 9 ∧ State.reset.stackFull = false ∧
    ∃ t, exec (.push (.lit 9)) State.reset = .next t ∧ t.stack = t.stack := ⟨rfl, rfl, _, rfl, rfl⟩

theorem test_witness_CallThenReturnResumes :
    (program [17, 3, 0, 18]).value (.lit 3) = .ok 3 ∧ TargetOk (program [17, 3, 0, 18]) 3 ∧ (program [17, 3, 0, 18]).stackFull = false ∧
    (program [17, 3, 0, 18]).pc.toNat + 2 < 32768 ∧ TargetOk (program [17, 3, 0, 18]) (seqPc (program [17, 3, 0, 18]) 2) :=
  ⟨rfl, ⟨by decide, by decide⟩, rfl, by decide, ⟨by decide, by decide⟩⟩

/-- A store of a word that is no opcode, and one of 0, into the cell after the `wmem` itself. -/
theorem test_witness_StoreIntoCodeSeenByNextFetch :
    (program [16, 3, 22]).Inv ∧ (program [16, 3, 22]).status = .running ∧ readResolve (program [16, 3, 22]) 3 = .ok 3 ∧
    readResolve (program [16, 3, 22]) 22 = .ok 22 ∧ readResolve (program [16, 3, 22]) 0 = .ok 0 ∧
    after (step (program [16, 3, 22])) (fun t => decide (t.pc = 3)) = true := ⟨by decide, rfl, rfl, rfl, rfl, by decide⟩

/-- The operand faults that every rule's last clause has as hypotheses: each role, at both ends of its failing ranges, behind operands that resolve. -/
theorem test_witness_operand_faults :
    writeResolve 32767 = .error ⟨.invalidRegisterIndex, 32767⟩ ∧ writeResolve 32776 = .error ⟨.invalidRegisterIndex, 32776⟩ ∧
    readResolve hundreds 32776 = .error ⟨.operandOutOfRange, 32776⟩ ∧ readResolve hundreds 65535 = .error ⟨.operandOutOfRange, 65535⟩ ∧
    writeResolve 32768 = .ok 0 ∧ writeResolve 32775 = .ok 7 ∧ readResolve hundreds 32767 = .ok 32767 ∧ readResolve hundreds 32775 = .ok 107 := by decide

theorem test_witness_SetRule : writeResolve 32769 = .ok 1 ∧ readResolve hundreds 32768 = .ok 100 := by decide

/-- No bound; a bound with room; a bound that is reached. -/
theorem test_witness_PushRule :
    readResolve hundreds 32769 = .ok 101 ∧ hundreds.stackCapacity = none ∧ ([] : List Word).length < 1 ∧ 1 ≤ [(4 : Word)].length := by decide

theorem test_witness_PopRule : writeResolve 32770 = .ok 2 ∧ ({ hundreds with stack := [7, 9] } : State).stack = [7, 9] ∧ hundreds.stack = [] := by decide

theorem test_witness_EqRule : writeResolve 32768 = .ok 0 ∧ readResolve hundreds 32769 = .ok 101 ∧ readResolve hundreds 7 = .ok 7 := by decide

theorem test_witness_GtRule : writeResolve 32768 = .ok 0 ∧ readResolve hundreds 5 = .ok 5 ∧ readResolve hundreds 3 = .ok 3 := by decide

theorem test_witness_JmpRule :
    readResolve (program [6, 32767]) 1 = .ok 1 ∧ TargetOk (program [6, 32767]) 1 ∧ ¬ TargetOk (program [6, 32767]) 32767 :=
  ⟨rfl, ⟨by decide, by decide⟩, fun h => absurd h.2 (by decide)⟩

/-- A condition that is not zero and one that is, with a target that passes its check and one that does not. -/
theorem test_witness_JtRule :
    readResolve (program [7, 1, 0]) 1 = .ok 1 ∧ readResolve (program [7, 1, 0]) 0 = .ok 0 ∧ TargetOk (program [7, 1, 0]) 0 ∧
    ¬ TargetOk (program [7, 1, 0]) 100 := ⟨rfl, rfl, ⟨by decide, by decide⟩, fun h => absurd h.2 (by decide)⟩

theorem test_witness_JfRule :
    readResolve (program [8, 0, 2]) 32767 = .ok 32767 ∧ readResolve (program [8, 0, 2]) 32768 = .ok 0 ∧ TargetOk (program [8, 0, 2]) 2 ∧
    ¬ TargetOk (program [8, 0, 2]) 100 := ⟨by decide, by decide, ⟨by decide, by decide⟩, fun h => absurd h.2 (by decide)⟩

theorem test_witness_AddRule : writeResolve 32768 = .ok 0 ∧ readResolve hundreds 32758 = .ok 32758 ∧ readResolve hundreds 15 = .ok 15 := by decide

theorem test_witness_MultRule : writeResolve 32768 = .ok 0 ∧ readResolve hundreds 300 = .ok 300 ∧ readResolve hundreds 200 = .ok 200 := by decide

/-- A divisor of 1 and a divisor of 0. -/
theorem test_witness_ModRule :
    writeResolve 32768 = .ok 0 ∧ readResolve State.reset 17 = .ok 17 ∧ readResolve State.reset 1 = .ok 1 ∧ (1 : Word).toNat ≠ 0 ∧
    readResolve State.reset 32769 = .ok 0 ∧ (0 : Word).toNat = 0 := by decide

theorem test_witness_AndRule : writeResolve 32768 = .ok 0 ∧ readResolve hundreds 12 = .ok 12 ∧ readResolve hundreds 10 = .ok 10 := by decide

theorem test_witness_OrRule : writeResolve 32775 = .ok 7 ∧ readResolve hundreds 12 = .ok 12 ∧ readResolve hundreds 32770 = .ok 102 := by decide

theorem test_witness_NotRule : writeResolve 32768 = .ok 0 ∧ readResolve hundreds 32767 = .ok 32767 ∧ (32767 : Word).toNat ≤ 32767 := by decide

theorem test_witness_AluClosure :
    State.reset.Inv ∧ readResolve State.reset 32767 = .ok 32767 ∧ readResolve State.reset 32768 = .ok 0 ∧
    after (exec (.mult (.reg 0) (.lit 32767) (.lit 2)) State.reset) (fun t => decide (t.reg 0 = 32766)) = true ∧
    (Instr.mult (.reg 0) (.lit 32767) (.lit 2)).wellFormed = true := by decide

/-- A cell that holds 32767, one that holds 32768, one that is not allocated, and an address no run reaches. -/
theorem test_witness_RmemRule :
    writeResolve 32768 = .ok 0 ∧ readResolve (program [32767, 32768]) 0 = .ok 0 ∧ (program [32767, 32768]).mem.read 0 = some 32767 ∧
    readResolve (program [32767, 32768]) 1 = .ok 1 ∧ (program [32767, 32768]).mem.read 1 = some 32768 ∧
    readResolve (program [32767, 32768]) 2 = .ok 2 ∧ (program [32767, 32768]).mem.read 2 = none ∧
    readResolve { State.reset with regs := ⟨32768, 0, 0, 0, 0, 0, 0, 0⟩ } 32768 = .ok 32768 ∧ 32768 ≤ (32768 : Word).toNat := by decide

theorem test_witness_WmemRule :
    readResolve State.reset 32767 = .ok 32767 ∧ readResolve State.reset 1234 = .ok 1234 ∧ (32767 : Word).toNat < 32768 ∧ State.reset.Inv ∧
    readResolve { State.reset with regs := ⟨32768, 0, 0, 0, 0, 0, 0, 0⟩ } 32768 = .ok 32768 ∧ 32768 ≤ (32768 : Word).toNat := by decide

/-- A call at 32766, one to an unallocated cell, and one to an allocated cell with the stack unbounded, with room and full. -/
theorem test_witness_CallRule :
    32768 ≤ ({ State.reset with pc := 32766 } : State).pc.toNat + 2 ∧ (program [17, 0]).pc.toNat + 2 < 32768 ∧
    readResolve (program [17, 0]) 2 = .ok 2 ∧ ¬ TargetOk (program [17, 0]) 2 ∧ readResolve (program [17, 0]) 0 = .ok 0 ∧
    TargetOk (program [17, 0]) 0 ∧ (program [17, 0]).stackCapacity = none ∧ ([] : List Word).length < 1 ∧ 0 ≤ ([] : List Word).length :=
  ⟨by decide, by decide, rfl, fun h => absurd h.2 (by decide), rfl, ⟨by decide, by decide⟩, rfl, by decide, by decide⟩

theorem test_witness_RetRule :
    (program [18]).stack = [] ∧ ({ program [18] with stack := [0] } : State).stack = [0] ∧ TargetOk { program [18] with stack := [0] } 0 ∧
    ¬ TargetOk { program [18] with stack := [50] } 50 := ⟨rfl, rfl, ⟨by decide, by decide⟩, fun h => absurd h.2 (by decide)⟩

theorem test_witness_OutRule : readResolve hundreds 32767 = .ok 32767 := by decide

/-- A code of 32767, one of 32768, the end of input, and no event. -/
theorem test_witness_InRule :
    writeResolve 32770 = .ok 2 ∧
    ({ State.reset with lineBuffer := [32767] } : State).takeInput = some (.char 32767, State.reset) ∧ 32767 ≤ 32767 ∧
    ({ State.reset with lineBuffer := [32768] } : State).takeInput = some (.char 32768, State.reset) ∧ 32767 < 32768 ∧
    ({ State.reset with pendingInput := [.endOfInput] } : State).takeInput = some (.endOfInput, State.reset) ∧
    State.reset.takeInput = none := by decide

end Sys2Proof.Tests
end

section
/-! SUPPORT. What decoding and the fetch answer: the words of a decoded instruction stand at the pc, and how many words a fetch
that fails has seen. -/

namespace Sys2Proof

theorem operands0_eq_ok {j i : Instr} {ws rest : List Word} : operands0 j ws = .ok (i, rest) ↔ i = j ∧ ws = rest := by
  simp [operands0, eq_comm]

theorem operands1_eq_ok {k : Word → Instr} {i : Instr} {ws rest : List Word} :
    operands1 k ws = .ok (i, rest) ↔ ∃ a, i = k a ∧ ws = a :: rest := by
  rcases ws with _ | ⟨a, ws⟩ <;> simp [operands1, eq_comm]

theorem operands2_eq_ok {k : Word → Word → Instr} {i : Instr} {ws rest : List Word} :
    operands2 k ws = .ok (i, rest) ↔ ∃ a b, i = k a b ∧ ws = a :: b :: rest := by
  rcases ws with _ | ⟨a, _ | ⟨b, ws⟩⟩ <;> simp [operands2, eq_comm]

theorem operands3_eq_ok {k : Word → Word → Word → Instr} {i : Instr} {ws rest : List Word} :
    operands3 k ws = .ok (i, rest) ↔ ∃ a b c, i = k a b c ∧ ws = a :: b :: c :: rest := by
  rcases ws with _ | ⟨a, _ | ⟨b, _ | ⟨c, ws⟩⟩⟩ <;> simp [operands3, eq_comm]

/-- Operand words that decode are exactly those of the instruction they decode to, which is well formed (R63, R64). -/
theorem Op.operands_eq_ok {op : Op} {i : Instr} {ws rest : List Word} (h : op.operands ws = .ok (i, rest)) :
    i.op = op ∧ i.wellFormed = true ∧ ws = i.operandWords ++ rest := by
  cases op with
  | halt | ret | noop =>
    obtain ⟨rfl, rfl⟩ := operands0_eq_ok.1 h
    exact ⟨rfl, rfl, rfl⟩
  | push | pop | jmp | call | out | in_ =>
    obtain ⟨a, rfl, rfl⟩ := operands1_eq_ok.1 h
    simp [Instr.op, Instr.wellFormed, Instr.destination, Instr.sources, Instr.operandWords, Src.wf_ofWord, Src.word_ofWord,
      Dst.wf_ofWord, Dst.word_ofWord]
  | set | jt | jf | not | rmem | wmem =>
    obtain ⟨a, b, rfl, rfl⟩ := operands2_eq_ok.1 h
    simp [Instr.op, Instr.wellFormed, Instr.destination, Instr.sources, Instr.operandWords, Src.wf_ofWord, Src.word_ofWord,
      Dst.wf_ofWord, Dst.word_ofWord]
  | eq | gt | add | mult | mod | and | or =>
    obtain ⟨a, b, c, rfl, rfl⟩ := operands3_eq_ok.1 h
    simp [Instr.op, Instr.wellFormed, Instr.destination, Instr.sources, Instr.operandWords, Src.wf_ofWord, Src.word_ofWord,
      Dst.wf_ofWord, Dst.word_ofWord]

theorem operands1_eq_error {k : Word → Instr} {ws : List Word} {e : DecodeError} (h : operands1 k ws = .error e) :
    e = .missingWord (ws.length + 1) := by
  rcases ws with _ | ⟨a, ws⟩ <;> simp_all [operands1]

theorem operands2_eq_error {k : Word → Word → Instr} {ws : List Word} {e : DecodeError} (h : operands2 k ws = .error e) :
    e = .missingWord (ws.length + 1) := by
  rcases ws with _ | ⟨a, _ | ⟨b, ws⟩⟩ <;> simp_all [operands2]

theorem operands3_eq_error {k : Word → Word → Word → Instr} {ws : List Word} {e : DecodeError}
    (h : operands3 k ws = .error e) : e = .missingWord (ws.length + 1) := by
  rcases ws with _ | ⟨a, _ | ⟨b, _ | ⟨c, ws⟩⟩⟩ <;> simp_all [operands3]

/-- Operand words fail to decode only by ending early, and the error names the first word that is missing (R83). -/
theorem Op.operands_eq_error {op : Op} {ws : List Word} {e : DecodeError} (h : op.operands ws = .error e) :
    e = .missingWord (ws.length + 1) := by
  cases op with
  | halt | ret | noop => cases h
  | push | pop | jmp | call | out | in_ => exact operands1_eq_error h
  | set | jt | jf | not | rmem | wmem => exact operands2_eq_error h
  | eq | gt | add | mult | mod | and | or => exact operands3_eq_error h

/-- Words that decode are exactly the words of the instruction they decode to, which is well formed, and the words left. -/
theorem decode_eq_ok {i : Instr} {ws rest : List Word} (h : decode ws = .ok (i, rest)) :
    i.wellFormed = true ∧ ws = encode i ++ rest := by
  cases ws with
  | nil => cases h
  | cons w ws =>
    cases hop : Op.ofWord w with
    | none => simp [decode, hop] at h
    | some op =>
      simp only [decode, hop] at h
      obtain ⟨rfl, hwf, rfl⟩ := Op.operands_eq_ok h
      rw [Op.word_of_ofWord hop]
      exact ⟨hwf, rfl⟩

/-- Words fail to decode on an invalid opcode word at their head, or by ending before the word that is as far in as they are long. -/
theorem decode_eq_error {ws : List Word} {e : DecodeError} (h : decode ws = .error e) :
    (∃ w, ws.head? = some w ∧ Op.ofWord w = none ∧ e = .invalidOpcode w) ∨ e = .missingWord ws.length := by
  cases ws with
  | nil => exact .inr (by simpa [decode] using h.symm)
  | cons w ws =>
    cases hop : Op.ofWord w with
    | none => exact .inl ⟨w, rfl, hop, by simpa [decode, hop] using h.symm⟩
    | some op =>
      simp only [decode, hop] at h
      exact .inr (Op.operands_eq_error h)

@[simp] theorem encode_length (i : Instr) : (encode i).length = i.length := Nat.add_comm ..

end Sys2Proof

namespace Sys2Proof.Machine

open Sys2Proof.Claims

/-- A fetched instruction is well formed, and its words stand at the pc (R81 to R83). -/
theorem State.fetch_eq_ok {s : State} {i : Instr} (h : s.fetch = .ok i) : i.wellFormed = true ∧ PlacedAtPc s i := by
  unfold State.fetch at h
  split at h
  · rename_i j rest hdec
    cases h
    obtain ⟨hwf, hws⟩ := decode_eq_ok hdec
    refine ⟨hwf, fun k w hk => (State.readableWords_getElem (n := Config.maxLength) ?_).1⟩
    rw [hws, List.getElem?_append_left (List.getElem?_eq_some_iff.1 hk).1, hk]
  · cases h
  · cases h

/-- What a failed fetch raises: InvalidOpcode with the opcode word, or AddressingError for a word at most four after the pc. -/
theorem State.fetch_eq_error {s : State} {e : Trap} (h : s.fetch = .error e) :
    (∃ w : Word, e = ⟨.invalidOpcode, w.toNat⟩) ∨ ∃ k ≤ Config.maxLength, e = ⟨.addressingError, s.pc.toNat + k⟩ := by
  unfold State.fetch at h
  split at h
  · cases h
  · rename_i w _
    exact .inl ⟨w, by simpa using h.symm⟩
  · rename_i k hdec
    obtain ⟨w, -, -, hw⟩ | hk := decode_eq_error hdec
    · cases hw
    · cases hk
      exact .inr ⟨_, s.readableWords_length_le .., by simpa using h.symm⟩

/-- A fetched instruction ends inside the Word Store, so the pc after it is at most 32768 (R23). -/
theorem State.fetch_end_le {s : State} {i : Instr} (h : s.fetch = .ok i) : s.pc.toNat + i.length ≤ 32768 := by
  have hlen : (encode i).length = i.operandWords.length + 1 := rfl
  have hlast := (State.fetch_eq_ok h).2 i.operandWords.length _ (List.getElem?_eq_getElem (by omega))
  have := (State.memRead_eq_ok.1 hlast).1
  simp only [Instr.length]
  omega

end Sys2Proof.Machine
end

section
/-! SUPPORT. The invariant, one update of the state at a time, and kept by every effect. -/

namespace Sys2Proof.Machine

/-! Taking an input event leaves everything but the channel's input alone. -/

section
variable {s u : State} {ev : InputEvent}

theorem State.takeInput_regs (h : s.takeInput = some (ev, u)) : u.regs = s.regs := by
  rw [State.takeInput_eq_some h]

theorem State.takeInput_pc (h : s.takeInput = some (ev, u)) : u.pc = s.pc := by
  rw [State.takeInput_eq_some h]

theorem State.takeInput_stack (h : s.takeInput = some (ev, u)) : u.stack = s.stack := by
  rw [State.takeInput_eq_some h]

theorem State.takeInput_mem (h : s.takeInput = some (ev, u)) : u.mem = s.mem := by
  rw [State.takeInput_eq_some h]

theorem State.takeInput_status (h : s.takeInput = some (ev, u)) : u.status = s.status := by
  rw [State.takeInput_eq_some h]

theorem State.takeInput_stackCapacity (h : s.takeInput = some (ev, u)) : u.stackCapacity = s.stackCapacity := by
  rw [State.takeInput_eq_some h]

theorem State.takeInput_output (h : s.takeInput = some (ev, u)) : u.output = s.output := by
  rw [State.takeInput_eq_some h]

end

theorem State.stackWithinCapacity_iff {s : State} :
    s.stackWithinCapacity = true ↔ ∀ k, s.stackCapacity = some k → s.stack.length ≤ k := by
  unfold State.stackWithinCapacity
  split <;> simp [*]

theorem State.recordConsistent_of_running {s : State} (h : s.status = .running) : s.recordConsistent = true := by
  simp [State.recordConsistent, h]

/-- What a trap may record: an `info` of 65536 or more for ValueOutOfRange alone (R31). -/
def Trap.InfoInRange (e : Trap) : Prop := e.kind = .valueOutOfRange ∨ e.info < 65536

section
variable {s : State}

theorem State.Inv.raise {e : Trap} (hs : s.Inv) (he : e.InfoInRange) : (s.raise e).Inv := by
  obtain ⟨hreg, hstack, hout, hpc, hmem, hcap, -⟩ := hs
  exact ⟨hreg, hstack, hout, hpc, hmem, hcap, by simpa [State.recordConsistent, Trap.InfoInRange] using he⟩

theorem State.Inv.takeInput {u : State} {ev : InputEvent} (hs : s.Inv) (h : s.takeInput = some (ev, u)) : u.Inv := by
  rw [State.takeInput_eq_some h]
  exact hs

theorem State.Inv.setReg {v : Word} (hs : s.Inv) (d : RegIndex) (hv : v.toNat ≤ 32767) : (s.setReg d v).Inv := by
  obtain ⟨hreg, hrest⟩ := hs
  refine ⟨fun r => ?_, hrest⟩
  rw [State.reg_setReg]
  split
  · exact hv
  · exact hreg r

theorem State.Inv.setStack {ws : List Word} (hs : s.Inv) (hws : wordsInRange ws = true)
    (hcap : ∀ k, s.stackCapacity = some k → ws.length ≤ k) : ({ s with stack := ws } : State).Inv := by
  obtain ⟨hreg, -, hout, hpc, hmem, -, hrec⟩ := hs
  exact ⟨hreg, hws, hout, hpc, hmem, State.stackWithinCapacity_iff.2 hcap, hrec⟩

theorem State.Inv.writeMem {a : Nat} (v : Word) (hs : s.Inv) (ha : a < 32768) :
    ({ s with mem := s.mem.write a v } : State).Inv := by
  obtain ⟨hreg, hstack, hout, hpc, hmem, hrest⟩ := hs
  exact ⟨hreg, hstack, hout, hpc, Memory.wf_write v hmem ha, hrest⟩

theorem State.Inv.emit {c : Word} (hs : s.Inv) (hc : c.toNat ≤ 32767) : (s.emit c).Inv := by
  obtain ⟨hreg, hstack, hout, hrest⟩ := hs
  exact ⟨hreg, hstack, wordsInRange_append.2 ⟨hout, hc⟩, hrest⟩

theorem State.Inv.setPc {v : Word} (hs : s.Inv) (hrun : s.status = .running) (hv : v.toNat ≤ 32768) :
    ({ s with pc := v } : State).Inv := by
  obtain ⟨hreg, hstack, hout, -, hmem, hcap, -⟩ := hs
  exact ⟨hreg, hstack, hout, hv, hmem, hcap, State.recordConsistent_of_running hrun⟩

theorem State.Inv.advance {n : Nat} (hs : s.Inv) (hrun : s.status = .running) (hn : s.pc.toNat + n ≤ 32768) :
    (s.advance n).Inv :=
  hs.setPc hrun (by rw [BitVec.toNat_ofNat, Nat.mod_eq_of_lt (by omega)]; exact hn)

theorem State.Inv.halt (hs : s.Inv) : ({ s with status := .halted } : State).Inv := by
  obtain ⟨hreg, hstack, hout, hpc, hmem, hcap, -⟩ := hs
  exact ⟨hreg, hstack, hout, hpc, hmem, hcap, rfl⟩

/-- A push that finds the stack not full leaves it within its capacity (R26). -/
theorem State.Inv.push {v : Word} (hs : s.Inv) (hf : s.stackFull = false) (hv : v.toNat ≤ 32767) :
    ({ s with stack := v :: s.stack } : State).Inv := by
  have ⟨_, hstack, _⟩ := hs
  refine hs.setStack (wordsInRange_cons.2 ⟨hv, hstack⟩) fun k hk => Nat.lt_of_not_le fun hle => ?_
  exact Bool.eq_false_iff.1 hf (State.stackFull_eq_true.2 ⟨k, hk, hle⟩)

/-- A pop takes off a word in range and leaves the invariant (R26). -/
theorem State.Inv.pop {v : Word} {rest : List Word} (hs : s.Inv) (h : s.stack = v :: rest) :
    v.toNat ≤ 32767 ∧ ({ s with stack := rest } : State).Inv := by
  have ⟨_, hstack, _, _, _, hcap, _⟩ := hs
  rw [h, wordsInRange_cons] at hstack
  refine ⟨hstack.1, hs.setStack hstack.2 fun k hk => ?_⟩
  have := State.stackWithinCapacity_iff.1 hcap k hk
  rw [h, List.length_cons] at this
  omega

end

/-- Every trap of an instruction's own records an `info` in range, its input faults apart (R31, R202). -/
theorem FaultCause.infoInRange {i : Instr} {s : State} {e : Trap} (h : FaultCause i s e) (hpc : s.pc.toNat ≤ 32768) :
    e.InfoInRange := by
  cases h with
  | source w | dest w => exact .inr w.isLt
  | pop | ret => exact .inr (by decide : _ < 65536)
  | divisor d b c => exact .inr c.word.isLt
  | address a _ hb => exact .inr (show a < 65536 by omega)
  | stored => exact .inl rfl
  | full _ _ _ _ hn => exact .inr hn

/-- A fetch that fails records an `info` in range. -/
theorem State.fetch_infoInRange {s : State} {e : Trap} (h : s.fetch = .error e) (hpc : s.pc.toNat ≤ 32768) :
    e.InfoInRange := by
  obtain ⟨w, rfl⟩ | ⟨k, hk, rfl⟩ := State.fetch_eq_error h
  · exact .inr w.isLt
  · exact .inr (show s.pc.toNat + k < 65536 by simp only [Config.maxLength] at hk; omega)

theorem Instr.source_wf {i : Instr} {x : Src} (h : i.wellFormed = true) (hx : x ∈ i.sources) : x.wf = true :=
  List.all_eq_true.1 (Bool.and_eq_true_iff.1 h).2 x hx

/-- Every effect of a well-formed instruction that ends inside the Word Store keeps the invariant. -/
theorem Effect.inv {i : Instr} {s t : State} (h : Effect i s t) (hwf : i.wellFormed = true)
    (hend : s.pc.toNat + i.length ≤ 32768) (hrun : s.status = .running) (hs : s.Inv) : t.Inv := by
  have ⟨hreg, _⟩ := hs
  have hvalue {x : Src} {v : Word} (hx : x ∈ i.sources) (hv : s.value x = .ok v) : v.toNat ≤ 32767 :=
    State.value_le hreg (Instr.source_wf hwf hx) hv
  cases h with
  | fault e h => exact hs.raise (h.infoInRange (by omega))
  | inputFault d ev u e _ hin he =>
    refine (hs.takeInput hin).raise ?_
    obtain ⟨c, -, -, rfl⟩ | ⟨-, rfl⟩ := he
    · exact .inl rfl
    · exact .inr (by decide : (0 : Nat) < 65536)
  | hold => exact hs
  | took d c u _ hin hc =>
    have hc : (BitVec.ofNat 16 c).toNat ≤ 32767 := by rw [BitVec.toNat_ofNat]; omega
    exact ((hs.takeInput hin).setReg d hc).advance ((State.takeInput_status hin).trans hrun)
      (State.takeInput_pc hin ▸ hend)
  | halted h =>
    subst h
    exact (hs.advance hrun hend).halt
  | wrote d v _ _ _ hv => exact (hs.setReg d (hv hwf hreg)).advance hrun hend
  | popped d v rest _ hst =>
    obtain ⟨hv, hpop⟩ := hs.pop hst
    exact (hpop.setReg d hv).advance hrun hend
  | pushed b v h hb hf =>
    subst h
    exact (hs.push hf (hvalue (by simp [Instr.sources]) hb)).advance hrun hend
  | skipped => exact hs.advance hrun hend
  | jumped v _ hv => exact hs.setPc hrun hv.le
  | stored a b x v _ _ _ hx => exact (hs.writeMem v hx).advance hrun hend
  | called a v _ _ hr hv _ hf =>
    have hret : (BitVec.ofNat 16 (s.pc.toNat + 2)).toNat ≤ 32767 := by rw [BitVec.toNat_ofNat]; omega
    exact (hs.push hf hret).setPc hrun hv.le
  | returned v rest _ hst hv => exact (hs.pop hst).2.setPc hrun hv.le
  | emitted a c h ha =>
    subst h
    exact (hs.emit (hvalue (by simp [Instr.sources]) ha)).advance hrun hend

end Sys2Proof.Machine

namespace Sys2Proof.Proofs

open Sys2Proof.Machine

/-- Settles O16: a fetched instruction is well formed and ends inside the Word Store, so its effect keeps the invariant; a failed
fetch records an `info` in range. -/
theorem stepKeepsInvariant : Obligations.StepKeepsInvariant := by
  intro s t hs h
  obtain ⟨hrun, ⟨i, hf, hx⟩ | ⟨e, hf, rfl⟩⟩ := step_next h
  · exact (exec_effect hx).inv (State.fetch_eq_ok hf).1 (State.fetch_end_le hf) hrun hs
  · have ⟨_, _, _, hpc, _⟩ := hs
    exact hs.raise (State.fetch_infoInRange hf hpc)

end Sys2Proof.Proofs
end

section
/-! SUPPORT. Which effects write which part of the state: one lemma a field, for every instruction. The frames of single
instructions follow, because an instruction that is none of a field's writers leaves the field alone. -/

namespace Sys2Proof.Machine

open Sys2Proof.Claims

section
variable {i : Instr} {s t : State}

/-- A register changes only where it is the instruction's destination (R20). -/
theorem Effect.reg (h : Effect i s t) (r : RegIndex) : t.reg r = s.reg r ∨ i.destination = some (.reg r) := by
  have written {u : State} {d : RegIndex} (v : Word) (hu : u.regs = s.regs) (hd : i.destination = some (.reg d)) (n : Nat) :
      ((u.setReg d v).advance n).reg r = s.reg r ∨ i.destination = some (.reg r) := by
    by_cases hr : r = d
    · exact .inr (hr ▸ hd)
    · exact .inl (by simp [hr, State.reg, hu])
  cases h with
  | inputFault d ev u e _ hin => exact .inl (congrArg (RegBank.get · r) (State.takeInput_regs hin :))
  | took d c u h hin => exact written _ (State.takeInput_regs hin :) (h ▸ rfl) _
  | wrote d v h => exact written v rfl h _
  | popped d v rest h => exact written (u := { s with stack := rest }) v rfl (h ▸ rfl) _
  | fault | hold | halted | pushed | skipped | jumped | stored | called | returned | emitted => exact .inl rfl

/-- The stack changes by one entry at its top, and only at push, call, pop and ret (R26). -/
theorem Effect.stack (h : Effect i s t) : t.stack = s.stack ∨
    (∃ a v, (i = .push a ∨ i = .call a) ∧ t.stack = v :: s.stack) ∨
    ((∃ d, i = .pop d) ∨ i = .ret) ∧ ∃ v, s.stack = v :: t.stack := by
  cases h with
  | inputFault _ _ _ _ _ hin | took _ _ _ _ hin => exact .inl (State.takeInput_stack hin :)
  | popped d v rest h hs => exact .inr (.inr ⟨.inl ⟨_, h⟩, v, hs⟩)
  | pushed a v h => exact .inr (.inl ⟨a, v, .inl h, rfl⟩)
  | called a v h => exact .inr (.inl ⟨a, _, .inr h, rfl⟩)
  | returned v rest h hs => exact .inr (.inr ⟨.inr h, v, hs⟩)
  | fault | hold | halted | wrote | skipped | jumped | stored | emitted => exact .inl rfl

/-- The Word Store changes only at wmem, by the word written at its address (R44). -/
theorem Effect.mem (h : Effect i s t) : t.mem = s.mem ∨
    ∃ a b x v, i = .wmem a b ∧ s.value a = .ok x ∧ s.value b = .ok v ∧ t.mem = s.mem.write x.toNat v := by
  cases h with
  | inputFault _ _ _ _ _ hin | took _ _ _ _ hin => exact .inl (State.takeInput_mem hin :)
  | stored a b x v h ha hb => exact .inr ⟨a, b, x, v, h, ha, hb, rfl⟩
  | fault | hold | halted | wrote | popped | pushed | skipped | jumped | called | returned | emitted => exact .inl rfl

/-- The output log changes only at out, by one code at its end (R183). -/
theorem Effect.output (h : Effect i s t) : t.output = s.output ∨
    ∃ a c, i = .out a ∧ s.value a = .ok c ∧ t.output = s.output ++ [c] := by
  cases h with
  | inputFault _ _ _ _ _ hin | took _ _ _ _ hin => exact .inl (State.takeInput_output hin :)
  | emitted a c h ha => exact .inr ⟨a, c, h, ha, rfl⟩
  | fault | hold | halted | wrote | popped | pushed | skipped | jumped | stored | called | returned => exact .inl rfl

/-- The channel's input changes only at an in with a register destination (R181). -/
theorem Effect.input (h : Effect i s t) :
    (t.lineBuffer = s.lineBuffer ∧ t.pendingInput = s.pendingInput) ∨ ∃ d, i = .in_ (.reg d) := by
  cases h with
  | inputFault d _ _ _ h | took d _ _ h => exact .inr ⟨d, h⟩
  | fault | hold | halted | wrote | popped | pushed | skipped | jumped | stored | called | returned | emitted =>
    exact .inl ⟨rfl, rfl⟩

/-- No instruction writes the stack's capacity (assumption log 3). -/
theorem Effect.stackCapacity (h : Effect i s t) : t.stackCapacity = s.stackCapacity := by
  cases h with
  | inputFault _ _ _ _ _ hin | took _ _ _ _ hin => exact (State.takeInput_stackCapacity hin :)
  | fault | hold | halted | wrote | popped | pushed | skipped | jumped | stored | called | returned | emitted => rfl

/-- Only halt ends the run without a fault (R28). -/
theorem Effect.status (h : Effect i s t) : StatusKeptOrFaulted s t ∨ (i = .halt ∧ t.status = .halted) := by
  cases h with
  | fault e | inputFault _ _ _ e => exact .inl (.inr ⟨_, rfl⟩)
  | took d c u _ hin =>
    exact .inl (.inl (State.takeInput_status hin :))
  | halted h => exact .inr ⟨h, rfl⟩
  | hold | wrote | popped | pushed | skipped | jumped | stored | called | returned | emitted => exact .inl (.inl rfl)

/-- Where an instruction that faults nowhere leaves the pc: at the next instruction, at an allocated cell a jump, a call or a
return names, or at a held in (R85, R87, R125). -/
theorem Effect.pc (h : Effect i s t) (hrun : t.status = .running) : t.pc = seqPc s i.length ∨
    ((∃ a b, i = .jmp a ∨ i = .jt a b ∨ i = .jf a b ∨ i = .call a ∨ i = .ret) ∧ TargetOk s t.pc) ∨
    ((∃ d, i = .in_ (.reg d)) ∧ s.takeInput = none ∧ t = s) := by
  cases h with
  | fault | inputFault | halted => cases hrun
  | hold d h hin => exact .inr (.inr ⟨⟨d, h⟩, hin, rfl⟩)
  | took d c u _ hin =>
    exact .inl (by simp [seqPc, State.takeInput_pc hin])
  | jumped v h hv hm =>
    obtain ⟨a, b, h⟩ := h
    exact .inr (.inl ⟨⟨a, b, by tauto⟩, hv, hm⟩)
  | called a v h _ _ hv hm => exact .inr (.inl ⟨⟨a, a, by simp [h]⟩, hv, hm⟩)
  | returned v rest h _ hv hm => exact .inr (.inl ⟨⟨.reg 0, .reg 0, by simp [h]⟩, hv, hm⟩)
  | wrote | popped | pushed | skipped | stored | emitted => exact .inl rfl

/-! The same for the instructions that are none of a field's writers. -/

theorem Effect.sameStack (h : Effect i s t) (hpush : ∀ a, i ≠ .push a) (hcall : ∀ a, i ≠ .call a) (hpop : ∀ d, i ≠ .pop d)
    (hret : i ≠ .ret) : t.stack = s.stack := by
  obtain hstack | ⟨a, _, hi | hi, -⟩ | ⟨⟨d, hi⟩ | hi, -⟩ := h.stack
  · exact hstack
  · exact absurd hi (hpush a)
  · exact absurd hi (hcall a)
  · exact absurd hi (hpop d)
  · exact absurd hi hret

theorem Effect.sameMemory (h : Effect i s t) (hwmem : ∀ a b, i ≠ .wmem a b) : SameMemory s t := by
  obtain hmem | ⟨a, b, _, _, hi, -⟩ := h.mem
  · exact fun a => hmem ▸ rfl
  · exact absurd hi (hwmem a b)

theorem Effect.sameChannel (h : Effect i s t) (hout : ∀ a, i ≠ .out a) (hin : ∀ d, i ≠ .in_ d) : SameChannel s t := by
  obtain hlog | ⟨a, _, hi, -⟩ := h.output
  · obtain ⟨hline, hpending⟩ | ⟨d, hi⟩ := h.input
    · exact ⟨hlog, hline, hpending, h.stackCapacity⟩
    · exact absurd hi (hin _)
  · exact absurd hi (hout a)

theorem Effect.statusKeptOrFaulted (h : Effect i s t) (hhalt : i ≠ .halt) : StatusKeptOrFaulted s t :=
  h.status.resolve_right fun hi => hhalt hi.1

end

/-! ### When a step is taken -/

theorem step_answers_next {s : State} (h : s.status = .running) : ∃ t, step s = .next t := by
  rw [step_of_running h]
  cases s.fetch with
  | ok i => exact exec_answers_next i s
  | error e => exact ⟨_, rfl⟩

theorem step_of_halted {s : State} (h : s.status = .halted) : step s = .fault .runHalted := by
  rw [step_eq, engineStep, h]

theorem step_of_faulted {s : State} {r : FaultRecord} (h : s.status = .faulted r) : step s = .fault (.runFaulted r) := by
  rw [step_eq, engineStep, h]

theorem step_answers_next_iff {s : State} : (∃ t, step s = .next t) ↔ s.status = .running :=
  ⟨fun ⟨_, h⟩ => (step_next h).1, step_answers_next⟩

end Sys2Proof.Machine

namespace Sys2Proof.Proofs

open Sys2Proof.Machine Sys2Proof.Claims

/-- Settles O24: each of the ten writes its destination, and is no writer of the stack, the Word Store or the channel. -/
theorem registerInstructionsFrame : Obligations.RegisterInstructionsFrame := by
  intro a b c i s t hi h
  have he := exec_effect h
  have hd : i.destination = some a := by
    simp only [List.mem_cons, List.not_mem_nil, or_false] at hi
    rcases hi with rfl | rfl | rfl | rfl | rfl | rfl | rfl | rfl | rfl | rfl <;> rfl
  refine ⟨fun r hr => (he.reg r).resolve_right fun hr' => hr (by simpa [hd] using hr'), he.sameStack ?_ ?_ ?_ ?_,
    he.sameMemory ?_, he.sameChannel ?_ ?_, he.statusKeptOrFaulted ?_⟩
  -- what is left says that none of the other storages' writers is among the instructions listed
  all_goals
    intros
    rintro rfl
    simp at hi

/-- Settles O26: none of the four writes the Word Store or the channel, and each changes the stack at its top alone. -/
theorem stackInstructionsFrame : Obligations.StackInstructionsFrame := by
  intro a d i s t hi h
  have he := exec_effect h
  simp only [List.mem_cons, List.not_mem_nil, or_false] at hi
  refine ⟨fun r hr => (he.reg r).resolve_right fun hr' => ?_, he.sameMemory ?_, he.sameChannel ?_ ?_,
    he.statusKeptOrFaulted ?_, ?_⟩
  · obtain rfl | rfl | rfl | rfl := hi
    case inr.inl => exact hr rfl (by simpa [Instr.destination] using hr')
    all_goals cases hr'
  case refine_6 =>
    obtain hst | ⟨b, v, hb, hst⟩ | ⟨hpop, hst⟩ := he.stack
    · exact .inl hst
    · refine .inr (.inl ⟨?_, v, hst⟩)
      obtain rfl | rfl := hb <;> simpa using hi
    · refine .inr (.inr ⟨?_, hst⟩)
      obtain ⟨e, rfl⟩ | rfl := hpop
      · simpa using hi
      · exact .inr rfl
  -- what is left says that none of the other storages' writers is among the instructions listed
  all_goals
    intros
    rintro rfl
    simp at hi

/-- Settles O29: a failed fetch changes the status alone, and an instruction that changed a storage is one of its writers. -/
theorem eachStorageHasItsWriters : Obligations.EachStorageHasItsWriters := by
  intro s t h
  obtain ⟨-, ⟨i, hf, hx⟩ | ⟨e, -, rfl⟩⟩ := step_next h
  · have he := exec_effect hx
    simp only [hf, Except.ok.injEq]
    refine ⟨fun r hr => ⟨i, rfl, (he.reg r).resolve_left hr⟩, fun hst => ?_, fun hm => ?_, fun ho => ?_, fun hin => ?_,
      he.stackCapacity⟩
    · obtain ⟨a, _, hi, -⟩ | ⟨⟨d, hi⟩ | hi, -⟩ := he.stack.resolve_left hst
      · exact ⟨a, .reg 0, by tauto⟩
      · exact ⟨.reg 0, d, by tauto⟩
      · exact ⟨.reg 0, .reg 0, by tauto⟩
    · obtain ⟨a, b, _, _, hi, -⟩ := he.mem.resolve_left hm
      exact ⟨a, b, hi⟩
    · obtain ⟨a, _, hi, -⟩ := he.output.resolve_left ho
      exact ⟨a, hi⟩
    · obtain ⟨d, hi⟩ := he.input.resolve_left (by tauto)
      exact ⟨_, hi⟩
  · simp

/-- Settles O30: the fetched instruction's effect leaves the pc at one of the three places. -/
theorem pcAfterStep : Obligations.PcAfterStep := by
  intro s t i hrun hf h ht
  rw [step_of_running hrun, hf] at h
  rw [encode_length]
  obtain hpc | hjump | ⟨⟨d, rfl⟩, hin, hts⟩ := (exec_effect h).pc ht
  · exact .inl hpc
  · exact .inr (.inl hjump)
  · exact .inr (.inr ⟨State.holding_eq_true.2 ⟨hrun, ⟨d, hf⟩, hin⟩, hts⟩)

/-- Settles O11: every instruction answers next in a Running core, and the two ends answer the model's own faults. -/
theorem stepTakenOnlyWhileRunning : Obligations.StepTakenOnlyWhileRunning := by
  intro s
  refine ⟨step_answers_next, step_of_halted, fun _ => step_of_faulted, ?_, fun h k hk => ?_⟩
  · rw [← not_exists, step_answers_next_iff]
    cases hs : s.status <;> simp [State.ended, hs]
  · obtain ⟨hphase, hstep, hk⟩ := Session.step_eq_some hk
    refine ⟨hphase, hstep, ?_⟩
    cases he : k.core.ended <;> simp [Session.finalStatus, hk, he]

/-- Settles O20, by the register bank's law. -/
theorem registerReadAfterWrite : Obligations.RegisterReadAfterWrite := RegBank.get_set

end Sys2Proof.Proofs
end

section
/-! SUPPORT. A step and the output log: an earlier log put before a state's own is carried along by every operation, so nothing a step
answers depends on it (R32, R183). -/

namespace Sys2Proof.Machine

/-- The state with a log put before its own output log. -/
def State.afterLog (log : List Word) (s : State) : State := { s with output := log ++ s.output }

/-- An answer with its next state, if any, changed by `f`. -/
def Result.mapNext (f : State → State) : Result → Result
  | .next t => .next (f t)
  | .fault r => .fault r
  | .refused r => .refused r

@[simp] theorem Result.mapNext_next (f : State → State) (t : State) : Result.mapNext f (.next t) = .next (f t) := rfl

/-! ### The shared operations -/

section
variable (log : List Word) (s : State)

@[simp] theorem State.pc_afterLog : (s.afterLog log).pc = s.pc := rfl

@[simp] theorem State.stack_afterLog : (s.afterLog log).stack = s.stack := rfl

@[simp] theorem State.stackFull_afterLog : (s.afterLog log).stackFull = s.stackFull := rfl

@[simp] theorem State.value_afterLog (x : Src) : (s.afterLog log).value x = s.value x := by cases x <;> rfl

@[simp] theorem State.memRead_afterLog (a : Nat) : (s.afterLog log).memRead a = s.memRead a := rfl

@[simp] theorem State.raise_afterLog (e : Trap) : (s.afterLog log).raise e = (s.raise e).afterLog log := rfl

@[simp] theorem State.setReg_afterLog (d : RegIndex) (v : Word) :
    (s.afterLog log).setReg d v = (s.setReg d v).afterLog log := rfl

@[simp] theorem State.advance_afterLog (n : Nat) : (s.afterLog log).advance n = (s.advance n).afterLog log := rfl

/-- A code goes to the end of the log, whatever stands before it. -/
@[simp] theorem State.emit_afterLog (c : Word) : (s.afterLog log).emit c = (s.emit c).afterLog log := by
  simp [State.emit, State.afterLog]

@[simp] theorem State.jumpTo_afterLog (v : Word) : (s.afterLog log).jumpTo v = State.afterLog log <$> s.jumpTo v := by
  rw [State.jumpTo, State.jumpTo, apply_ite (State.afterLog log <$> ·)]
  rfl

@[simp] theorem State.memWrite_afterLog (a : Nat) (v : Word) :
    (s.afterLog log).memWrite a v = State.afterLog log <$> s.memWrite a v := by
  rw [State.memWrite, State.memWrite, apply_ite (State.afterLog log <$> ·)]
  rfl

@[simp] theorem State.pushWord_afterLog (v : Word) :
    (s.afterLog log).pushWord v = State.afterLog log <$> s.pushWord v := by
  rw [State.pushWord, State.pushWord, apply_ite (State.afterLog log <$> ·)]
  rfl

@[simp] theorem State.popWord_afterLog (op : Op) :
    (s.afterLog log).popWord op = Prod.map id (State.afterLog log) <$> s.popWord op := by
  simp only [State.popWord, State.stack_afterLog]
  split <;> rfl

@[simp] theorem State.takeInput_afterLog :
    (s.afterLog log).takeInput = Prod.map id (State.afterLog log) <$> s.takeInput := by
  unfold State.takeInput
  cases hb : s.lineBuffer with
  | cons c codes => simp [State.afterLog, hb]
  | nil => cases hn : nextItem s.pendingInput <;> simp [State.afterLog, hb, hn]

theorem State.commit_afterLog (r : Except Trap State) :
    (s.afterLog log).commit (State.afterLog log <$> r) = Result.mapNext (State.afterLog log) (s.commit r) := by
  cases r <;> rfl

@[simp] theorem State.readableWords_afterLog (n a : Nat) : (s.afterLog log).readableWords a n = s.readableWords a n := by
  induction n generalizing a with
  | zero => rfl
  | succ n ih => simp only [State.readableWords, State.memRead_afterLog, ih]

@[simp] theorem State.fetch_afterLog : (s.afterLog log).fetch = s.fetch := by
  simp only [State.fetch, State.readableWords_afterLog, State.pc_afterLog]

/-! ### The instructions -/

theorem State.writeUnary_afterLog (a : Dst) (b : Src) (f : Word → Except Trap Word) :
    (s.afterLog log).writeUnary a b f = Result.mapNext (State.afterLog log) (s.writeUnary a b f) := by
  simp [State.writeUnary, ← State.commit_afterLog]

theorem State.writeBinary_afterLog (a : Dst) (b c : Src) (f : Word → Word → Except Trap Word) :
    (s.afterLog log).writeBinary a b c f = Result.mapNext (State.afterLog log) (s.writeBinary a b c f) := by
  simp [State.writeBinary, ← State.commit_afterLog]

theorem State.branch_afterLog (a b : Src) (taken : Word → Bool) :
    (s.afterLog log).branch a b taken = Result.mapNext (State.afterLog log) (s.branch a b taken) := by
  simp [State.branch, ← State.commit_afterLog, apply_ite]

theorem execCall_afterLog (a : Src) :
    execCall a (s.afterLog log) = Result.mapNext (State.afterLog log) (execCall a s) := by
  simp [execCall, ← State.commit_afterLog, apply_ite]

theorem execIn_afterLog (a : Dst) :
    execIn a (s.afterLog log) = Result.mapNext (State.afterLog log) (execIn a s) := by
  cases a with
  | notRegister w => rfl
  | reg d =>
    match hin : s.takeInput with
    | none => simp [execIn, hin]
    | some (.char c, u) => by_cases hc : Config.valueMax < c <;> simp [execIn, hin, hc]
    | some (.endOfInput, u) => simp [execIn, hin]

/-- Every instruction carries an earlier log along and does not read it. -/
theorem exec_afterLog (i : Instr) : exec i (s.afterLog log) = Result.mapNext (State.afterLog log) (exec i s) := by
  cases i with
  | halt | noop => rfl
  | set a b | not a b | rmem a b => exact State.writeUnary_afterLog ..
  | eq a b c | gt a b c | add a b c | mult a b c | mod a b c | and a b c | or a b c => exact State.writeBinary_afterLog ..
  | jt a b | jf a b => exact State.branch_afterLog ..
  | push a => simp [exec, execPush, ← State.commit_afterLog]
  | pop a => simp [exec, execPop, ← State.commit_afterLog]
  | jmp a => simp [exec, execJmp, ← State.commit_afterLog]
  | wmem a b => simp [exec, execWmem, ← State.commit_afterLog]
  | call a => exact execCall_afterLog ..
  | ret => simp [exec, execRet, ← State.commit_afterLog]
  | out a => simp [exec, execOut, ← State.commit_afterLog]
  | in_ a => exact execIn_afterLog ..

/-- Every step carries an earlier log along and does not read it. -/
theorem step_afterLog : step (s.afterLog log) = Result.mapNext (State.afterLog log) (step s) := by
  cases hs : s.status with
  | running =>
    rw [step_of_running hs, step_of_running (s := s.afterLog log) hs, State.fetch_afterLog]
    cases s.fetch with
    | ok i => exact exec_afterLog ..
    | error e => rfl
  | halted => rw [step_of_halted hs, step_of_halted (s := s.afterLog log) hs]; rfl
  | faulted r => rw [step_of_faulted hs, step_of_faulted (s := s.afterLog log) hs]; rfl

end

theorem Result.mapNext_eq_next {f : State → State} {r : Result} {t : State} :
    Result.mapNext f r = .next t ↔ ∃ u, r = .next u ∧ t = f u := by
  cases r <;> simp [Result.mapNext, eq_comm]

/-- A step leaves the output log as it is or adds one code at its end (R183). -/
theorem step_output {s t : State} (h : step s = .next t) : t.output = s.output ∨ ∃ c, t.output = s.output ++ [c] := by
  obtain ⟨-, ⟨i, -, hx⟩ | ⟨e, -, rfl⟩⟩ := step_next h
  · exact (exec_effect hx).output.imp_right fun ⟨_, c, _, _, hc⟩ => ⟨c, hc⟩
  · exact .inl rfl

end Sys2Proof.Machine

namespace Sys2Proof.Proofs

open Sys2Proof.Machine

/-- Settles O31: every state is one with an empty log that an earlier log stands before, so the code a step adds to the empty
log is what it adds to any. -/
theorem stepNeverReadsOutputLog : Obligations.StepNeverReadsOutputLog := by
  intro s t h
  have hlog (log : List Word) : { s with output := log } = State.afterLog log { s with output := [] } := by
    simp [State.afterLog]
  have hs : s = State.afterLog s.output { s with output := [] } := hlog s.output
  rw [hs, step_afterLog, Result.mapNext_eq_next] at h
  obtain ⟨u, hu, rfl⟩ := h
  refine ⟨u.output, rfl, ?_, fun log => ?_⟩
  · obtain ho | ⟨c, ho⟩ := step_output hu <;> simp [ho]
  · rw [hlog log, step_afterLog, hu]
    rfl

end Sys2Proof.Proofs
end

section
/-! SUPPORT. The Word Store over a step (R41 to R44, R53): the canonical form is unique, only a completed `wmem` writes the store, and
the fetch runs by the word that stands at the pc. -/

namespace Sys2Proof.Machine

open Sys2Proof.Claims

/-- Canonical memories that read alike have the same least address, so they are equal cell by cell. -/
theorem Memory.eq_of_read_eq {m n : Memory} {lo : Nat} (hm : Memory.wfFrom lo m = true) (hn : Memory.wfFrom lo n = true)
    (h : ∀ a, m.read a = n.read a) : m = n := by
  induction m generalizing lo n with
  | nil =>
    rcases n with _ | ⟨⟨c, u⟩, n⟩
    · rfl
    · simpa using h c
  | cons b m ih =>
    obtain ⟨b, w⟩ := b
    rcases n with _ | ⟨⟨c, u⟩, n⟩
    · simpa using h b
    · obtain ⟨-, -, hm⟩ := (Memory.wfFrom_cons ..).1 hm
      obtain ⟨-, -, hn⟩ := (Memory.wfFrom_cons ..).1 hn
      simp only [Memory.read_cons] at h
      obtain hlt | rfl | hlt := Nat.lt_trichotomy b c
      · simpa [hlt.ne, Memory.read_eq_none_of_lt hn (hlt.trans c.lt_succ_self)] using h b
      · have htail : m = n := ih hm hn fun a => by
          by_cases hab : a = b
          · rw [hab, Memory.read_eq_none_of_lt hm b.lt_succ_self, Memory.read_eq_none_of_lt hn b.lt_succ_self]
          · simpa [hab] using h a
        have hword : w = u := by simpa using h b
        rw [hword, htail]
      · simpa [hlt.ne, Memory.read_eq_none_of_lt hm (hlt.trans b.lt_succ_self)] using h c

/-- A step leaves the Word Store as it is, or it ran a `wmem` and wrote its second operand at its first (R44, R161). -/
theorem step_mem {s t : State} (h : step s = .next t) : t.mem = s.mem ∨
    ∃ a b x v, s.fetch = .ok (.wmem a b) ∧ s.value a = .ok x ∧ s.value b = .ok v ∧ t.mem = s.mem.write x.toNat v := by
  obtain ⟨-, ⟨i, hf, hx⟩ | ⟨e, -, rfl⟩⟩ := step_next h
  · refine (exec_effect hx).mem.imp_right ?_
    rintro ⟨a, b, x, v, rfl, hrest⟩
    exact ⟨a, b, x, v, hf, hrest⟩
  · exact .inl rfl

/-- R65: the model's read-resolution of a word's operand class is the rule's. -/
theorem State.value_ofWord_eq_readResolve (s : State) (w : Word) : s.value (Src.ofWord w) = readResolve s w :=
  State.value_ofWord s w

section
variable {s : State}

/-- A `wmem` whose operands resolve, the first to a cell's address, completes (R161). -/
theorem exec_wmem_of_values {a b : Src} {x v : Word} (ha : s.value a = .ok x) (hb : s.value b = .ok v)
    (hx : x.toNat < 32768) :
    exec (.wmem a b) s = .next (({ s with mem := s.mem.write x.toNat v } : State).advance 3) := by
  simp [exec, execWmem, ha, hb, State.memWrite_eq_ok.2 ⟨hx, rfl⟩]

/-- The fetch decodes a list of words that begins with the word at the pc (R81). -/
theorem State.readableWords_pc {w : Word} (h : s.memRead s.pc.toNat = .ok w) :
    ∃ rest, s.readableWords s.pc.toNat Config.maxLength = w :: rest := by
  simp [State.readableWords, h]

/-- A word above 21 at the pc fails the fetch, whatever follows it (R68, R82). -/
theorem State.fetch_of_invalidOpcode {w : Word} (h : s.memRead s.pc.toNat = .ok w) (hw : 21 < w.toNat) :
    s.fetch = .error ⟨.invalidOpcode, w.toNat⟩ := by
  obtain ⟨rest, hws⟩ := State.readableWords_pc h
  simp [State.fetch, hws, decode, Op.ofWord_eq_none hw]

/-- The word 0 at the pc is `halt`, whatever follows it (R63). -/
theorem State.fetch_of_zero (h : s.memRead s.pc.toNat = .ok 0) : s.fetch = .ok .halt := by
  obtain ⟨rest, hws⟩ := State.readableWords_pc h
  have hdec : decode (0 :: rest) = .ok (.halt, rest) := decode_word .halt rest
  rw [State.fetch, hws, hdec]

theorem step_of_fetch_eq_ok {i : Instr} (hrun : s.status = .running) (hf : s.fetch = .ok i) : step s = exec i s := by
  rw [step_of_running hrun, hf]

theorem step_of_fetch_eq_error {e : Trap} (hrun : s.status = .running) (hf : s.fetch = .error e) :
    step s = .next (s.raise e) := by
  rw [step_of_running hrun, hf]

end

end Sys2Proof.Machine

namespace Sys2Proof.Proofs

open Sys2Proof.Machine Sys2Proof.Claims

/-- Settles O22: both memories are canonical from address 0 up. -/
theorem canonicalMemoryIsUnique : Obligations.CanonicalMemoryIsUnique := fun _ _ hm hn h => Memory.eq_of_read_eq hm hn h

/-- Settles O23: a step that changes the Word Store wrote one cell, a `wmem`'s address, and a written cell is allocated. -/
theorem allocationNeverUndone : Obligations.AllocationNeverUndone := by
  intro s t a h
  obtain hmem | ⟨x, y, p, v, hf, hx, -, hmem⟩ := step_mem h
  · rw [hmem]
    exact ⟨id, fun hnone hsome => absurd hnone hsome⟩
  · rw [hmem, Memory.read_write]
    by_cases ha : a = p.toNat
    · simp only [if_pos ha]
      exact ⟨fun _ => Option.some_ne_none v, fun _ _ => ⟨x, y, p, hf, hx, ha.symm⟩⟩
    · simp only [if_neg ha]
      exact ⟨id, fun hnone hsome => absurd hnone hsome⟩

/-- Settles O37: under the invariant the address is a cell's, so the `wmem` completes, and the next fetch finds the stored word. -/
theorem storeIntoCodeSeenByNextFetch : Obligations.StoreIntoCodeSeenByNextFetch := by
  intro s A B x v hinv hrun hA hB
  rw [← State.value_ofWord_eq_readResolve] at hA hB
  have ⟨hreg, _⟩ := hinv
  have hx : x.toNat < 32768 := Nat.lt_succ_of_le (State.value_le hreg (Src.wf_ofWord A) hA)
  refine ⟨_, exec_wmem_of_values hA hB hx, ?_⟩
  generalize ht : ({ s with mem := s.mem.write x.toNat v } : State).advance 3 = t
  have hread : t.memRead x.toNat = .ok v := by
    rw [State.memRead_eq_ok, ← ht]
    exact ⟨hx, by simp [Memory.read_write]⟩
  have htrun : t.status = .running := ht ▸ hrun
  refine ⟨hread, fun hpc => ?_⟩
  rw [← hpc] at hread
  constructor
  · intro hv
    exact step_of_fetch_eq_error htrun (State.fetch_of_invalidOpcode hread hv)
  · rintro rfl
    exact step_of_fetch_eq_ok htrun (State.fetch_of_zero hread)

/-- Settles O21, by the laws of the two memory operations and of the Word Store. -/
theorem memoryReadAndWrite : Obligations.MemoryReadAndWrite := by
  intro s a v
  refine ⟨fun ha => ⟨State.memRead_eq_error.2 ⟨.inl ha, rfl⟩, State.memWrite_eq_error.2 ⟨ha, rfl⟩⟩,
    fun _ hnone => State.memRead_eq_error.2 ⟨.inr hnone, rfl⟩, fun ha w hw => State.memRead_eq_ok.2 ⟨ha, hw⟩, fun ha => ?_⟩
  exact ⟨_, State.memWrite_eq_ok.2 ⟨ha, rfl⟩, rfl, fun hm => Memory.wf_write v hm ha, Memory.read_write s.mem a v⟩

end Sys2Proof.Proofs
end

section
/-! SUPPORT. The encoding (R60 to R69): what decoding answers by the opcode word and by how many operand words follow it, and that decoding
takes back the words of every well-formed instruction. -/

namespace Sys2Proof

open Sys2Proof.Claims

/-! ### From instructions to words and back -/

/-- After its opcode word, the operand words of every well-formed instruction decode to it (R63, R64). -/
theorem Laws.operandsDecode (i : Instr) : OperandsDecode.Statement i :=
  match i with
  | .halt => OperandsDecode.halt
  | .set a b => OperandsDecode.set a b
  | .push a => OperandsDecode.push a
  | .pop a => OperandsDecode.pop a
  | .eq a b c => OperandsDecode.eq a b c
  | .gt a b c => OperandsDecode.gt a b c
  | .jmp a => OperandsDecode.jmp a
  | .jt a b => OperandsDecode.jt a b
  | .jf a b => OperandsDecode.jf a b
  | .add a b c => OperandsDecode.add a b c
  | .mult a b c => OperandsDecode.mult a b c
  | .mod a b c => OperandsDecode.mod a b c
  | .and a b c => OperandsDecode.and a b c
  | .or a b c => OperandsDecode.or a b c
  | .not a b => OperandsDecode.not a b
  | .rmem a b => OperandsDecode.rmem a b
  | .wmem a b => OperandsDecode.wmem a b
  | .call a => OperandsDecode.call a
  | .ret => OperandsDecode.ret
  | .out a => OperandsDecode.out a
  | .in_ a => OperandsDecode.in_ a
  | .noop => OperandsDecode.noop

/-- Decoding a well-formed instruction's words gives it back and leaves the words after them. -/
theorem decode_encode {i : Instr} (h : i.wellFormed = true) (rest : List Word) :
    decode (encode i ++ rest) = .ok (i, rest) :=
  calc decode (encode i ++ rest)
    _ = i.op.operands (i.operandWords ++ rest) := decode_word ..
    _ = .ok (i, rest) := Laws.operandsDecode i h rest

/-! ### The opcode word -/

/-- R62, R68: a word above 21 is an invalid opcode, whatever words follow. -/
theorem decode_of_invalidOpcode {w : Word} (h : 21 < w.toNat) (rest : List Word) :
    decode (w :: rest) = .error (.invalidOpcode w) := by
  simp [decode, Op.ofWord_eq_none h]

/-- R63: every word up to 21 is an operation's opcode word. -/
theorem Op.exists_word_eq {w : Word} (h : w.toNat ≤ 21) : ∃ op : Op, op.word = w := by
  obtain ⟨op, hop, -⟩ := Op.ofWord_isSome h
  exact ⟨op, (Op.word_of_ofWord hop).symm⟩

/-! ### The number of operand words -/

/-- An instruction has as many operand words as its opcode's arity says (R61, R63). -/
theorem Instr.operandWords_length (i : Instr) : i.operandWords.length = arity i.op.number := by
  cases i <;> rfl

section
variable {op : Op} {ws : List Word}

theorem Op.exists_operands_eq_ok (h : arity op.number ≤ ws.length) : ∃ i rest, op.operands ws = .ok (i, rest) := by
  cases op with
  | halt | ret | noop => exact ⟨_, _, rfl⟩
  | push | pop | jmp | call | out | in_ =>
    match ws, h with
    | _ :: _, _ => exact ⟨_, _, rfl⟩
  | set | jt | jf | not | rmem | wmem =>
    match ws, h with
    | _ :: _ :: _, _ => exact ⟨_, _, rfl⟩
  | eq | gt | add | mult | mod | and | or =>
    match ws, h with
    | _ :: _ :: _ :: _, _ => exact ⟨_, _, rfl⟩

/-- With at least as many words as the arity, exactly that many are the instruction's operand words. -/
theorem Op.operands_of_arity_le (h : arity op.number ≤ ws.length) :
    ∃ i, op.operands ws = .ok (i, ws.drop (arity op.number)) ∧ i.op = op := by
  obtain ⟨i, rest, hok⟩ := Op.exists_operands_eq_ok h
  obtain ⟨rfl, -, rfl⟩ := Op.operands_eq_ok hok
  exact ⟨i, by rw [hok, ← Instr.operandWords_length, List.drop_left], rfl⟩

/-- With fewer words than the arity, the first missing word is the one after the last that is there (R83). -/
theorem Op.operands_of_lt_arity (h : ws.length < arity op.number) :
    op.operands ws = .error (.missingWord (ws.length + 1)) := by
  cases hws : op.operands ws with
  | ok r =>
    obtain ⟨rfl, -, rfl⟩ := Op.operands_eq_ok hws
    rw [← Instr.operandWords_length, List.length_append] at h
    omega
  | error e => rw [Op.operands_eq_error hws]

end

end Sys2Proof

namespace Sys2Proof.Proofs

open Sys2Proof.Machine Sys2Proof.Claims

/-- Settles O2: the opcode word selects the instruction's operation, whose operand words decode to the instruction. -/
theorem decodeOfEncode : Obligations.DecodeOfEncode := fun _ rest h => decode_encode h rest

/-- Settles O3: the words decoded are the opcode word of the operation and the words of its operands' classes. -/
theorem encodeOfDecode : Obligations.EncodeOfDecode := fun _ _ _ h => decode_eq_ok h

/-- Settles O4: a word up to 21 selects an operation, and operand words fail to decode only by ending early. -/
theorem opcodeComparedRaw : Obligations.OpcodeComparedRaw := by
  intro w rest
  refine ⟨fun hw => decode_of_invalidOpcode hw rest, fun hw v hdec => ?_⟩
  obtain ⟨op, rfl⟩ := Op.exists_word_eq hw
  rw [decode_word] at hdec
  cases Op.operands_eq_error hdec

/-- Settles O5: up to 21 the word is an operation's, and the operation's arity decides what its operand words answer. -/
theorem lengthFromOpcodeAlone : Obligations.LengthFromOpcodeAlone := by
  intro w rest
  refine ⟨fun hw hlen => ?_, fun hw hlen => ?_, fun hw => decode_of_invalidOpcode hw rest⟩
  all_goals
    obtain ⟨op, rfl⟩ := Op.exists_word_eq hw
    rw [Op.word_toNat] at hlen
  · obtain ⟨i, hok, rfl⟩ := Op.operands_of_arity_le hlen
    rw [decode_word, Op.word_toNat]
    exact ⟨i, hok, by rw [encode_length, Instr.length, Instr.operandWords_length]⟩
  · rw [decode_word, Op.operands_of_lt_arity hlen, Nat.add_comm]

/-- Settles O6: a word's operand class is well formed, so under the invariant its value is a literal or a register's in range. -/
theorem readResolution : Obligations.ReadResolution := by
  intro s w
  refine ⟨State.value_ofWord_eq_readResolve s w, fun hinv v hv => ?_⟩
  have ⟨hreg, _⟩ := hinv
  exact State.value_le hreg (Src.wf_ofWord w) hv

/-- Settles O1: each word list evaluates to its instruction. -/
theorem writtenWordsDecode : Obligations.WrittenWordsDecode :=
  ⟨rfl, rfl, rfl, rfl, rfl, rfl, rfl, rfl, rfl, rfl⟩

/-- Settles O7: the destination class of a word, in the spec's numbers. -/
theorem writeResolution : Obligations.WriteResolution := destIndex_ofWord

end Sys2Proof.Proofs
end

section
/-! SUPPORT. The engine (R80 to R89): the fetch answers exactly the well-formed instruction whose words stand at the pc, a failed fetch
names the first word that cannot be read, and a step that changes nothing is a hold or a jump. -/

namespace Sys2Proof

/-- R61, R69: every instruction has 1 to 4 words. -/
theorem Laws.encodingLength (i : Instr) : EncodingLength.Statement i :=
  i.casesOn EncodingLength.halt EncodingLength.set EncodingLength.push EncodingLength.pop EncodingLength.eq EncodingLength.gt
    EncodingLength.jmp EncodingLength.jt EncodingLength.jf EncodingLength.add EncodingLength.mult EncodingLength.mod
    EncodingLength.and EncodingLength.or EncodingLength.not EncodingLength.rmem EncodingLength.wmem EncodingLength.call
    EncodingLength.ret EncodingLength.out EncodingLength.in_ EncodingLength.noop

/-- The words of a table word that decodes are decoded, with some left that the instruction does not use. -/
theorem decodeTableWord_eq_some {nbits w : Nat} {i : Instr} (h : decodeTableWord nbits w = some i) :
    ∃ rest, decode (tableWords nbits w) = .ok (i, rest) := by
  unfold decodeTableWord at h
  split at h
  · cases h
    exact ⟨_, by assumption⟩
  · cases h

end Sys2Proof

namespace Sys2Proof.Machine

open Sys2Proof.Claims

/-- `next` of an instruction is not its own address. -/
theorem seqPc_length_ne (s : State) (i : Instr) : seqPc s i.length ≠ s.pc := by
  obtain ⟨-, hpos, hle⟩ := Laws.encodingLength i
  simp only [Config.maxLength] at hle
  intro h
  have := congrArg BitVec.toNat h
  simp only [seqPc, BitVec.toNat_ofNat] at this
  omega

/-! ### Fetch -/

section
variable {s : State}

/-- Where a well-formed instruction's words stand at the pc, the fetch answers it (R81 to R83). -/
theorem State.fetch_of_placed {i : Instr} (hwf : i.wellFormed = true) (hplaced : PlacedAtPc s i) : s.fetch = .ok i := by
  obtain ⟨hlen, -, hle⟩ := Laws.encodingLength i
  rw [State.fetch, State.readableWords_of_placed hplaced (hlen.trans_le hle), decode_encode hwf]

/-- The readable words end just before the first address that cannot be read. -/
theorem State.readableWords_length_eq {a n k : Nat} {e : Trap} (hk : k < n)
    (hread : ∀ j < k, ∃ v, s.memRead (a + j) = .ok v) (hmiss : s.memRead (a + k) = .error e) :
    (s.readableWords a n).length = k := by
  obtain hlt | heq | hgt := Nat.lt_trichotomy (s.readableWords a n).length k
  · obtain ⟨v, hv⟩ := hread _ hlt
    rw [State.memRead_after_readableWords (hlt.trans hk)] at hv
    cases hv
  · exact heq
  · have hv := (State.readableWords_getElem (List.getElem?_eq_getElem hgt)).1
    rw [hmiss] at hv
    cases hv

/-- R61: an operation has at most three operand words. -/
theorem arity_lt_maxLength (op : Op) : arity op.number < Config.maxLength := by
  cases op <;> decide

/-- R81, R83: the first word `k` of an instruction that cannot be read raises AddressingError with its address; word 0 is the opcode
word, and every other word belongs to the operation that the opcode word selects. -/
theorem State.fetch_of_missingWord {k : Nat} {e : Trap} (hread : ∀ j < k, ∃ v, s.memRead (s.pc.toNat + j) = .ok v)
    (hmiss : s.memRead (s.pc.toNat + k) = .error e)
    (hop : 1 ≤ k → ∃ op : Op, s.memRead s.pc.toNat = .ok op.word ∧ k ≤ arity op.number) :
    s.fetch = .error ⟨.addressingError, s.pc.toNat + k⟩ := by
  cases k with
  | zero =>
    have hlen := State.readableWords_length_eq (n := Config.maxLength) (by decide) hread hmiss
    rw [State.fetch, List.length_eq_zero_iff.1 hlen, decode]
  | succ k =>
    obtain ⟨op, hw, hk⟩ := hop k.succ_pos
    have hlen := State.readableWords_length_eq (hk.trans_lt (arity_lt_maxLength op)) hread hmiss
    obtain ⟨rest, hws⟩ := State.readableWords_pc hw
    rw [hws, List.length_cons, Nat.add_right_cancel_iff] at hlen
    rw [State.fetch, hws, decode_word, Op.operands_of_lt_arity (hlen ▸ hk), hlen]

/-! ### An instruction placed for the fetch -/

/-- The words that `withFetchWord` places can be read where the fetch reads them. -/
theorem State.memRead_withFetchWord {nbits w k : Nat} {v : Word} (hpc : s.pc.toNat ≤ 32764)
    (hv : (tableWords nbits w)[k]? = some v) : (s.withFetchWord nbits w).memRead (s.pc.toNat + k) = .ok v := by
  have hlen : (tableWords nbits w).length = 4 := by simp [tableWords, Config.maxLength]
  have hk := (List.getElem?_eq_some_iff.1 hv).1
  have hmem : (s.withFetchWord nbits w).mem = s.mem.writeWords s.pc.toNat (tableWords nbits w) := rfl
  have hroom : s.pc.toNat + (tableWords nbits w).length ≤ Config.memWords := by simp only [Config.memWords]; omega
  rw [State.memRead_eq_ok, hmem, Memory.read_writeWords _ _ _ _ hroom, if_pos (by omega), Nat.add_sub_cancel_left]
  exact ⟨by omega, hv⟩

end

/-! ### How a step can end -/

/-- A holding core's step answers the same state (R87; assumption log 6). -/
theorem step_of_holding {s : State} (h : s.holding = true) : step s = .next s := by
  obtain ⟨hrun, ⟨d, hf⟩, hin⟩ := State.holding_eq_true.1 h
  rw [step_of_fetch_eq_ok hrun hf]
  simp [exec, execIn, hin]

section
variable {i : Instr} {s t : State}

/-- How an instruction leaves the run status: kept, Halted by `halt`, or Faulted by fault entry in the state the instruction began in or,
at `in`, in the state without the event it took (R87, R203, R204). -/
theorem Effect.ending (h : Effect i s t) : t.status = s.status ∨ (i = .halt ∧ t = { s.advance 1 with status := .halted }) ∨
    (∃ e, FaultCause i s e ∧ t = s.raise e) ∨
    ∃ d ev u e, i = .in_ (.reg d) ∧ s.takeInput = some (ev, u) ∧ t = u.raise e := by
  cases h with
  | fault e h => exact .inr (.inr (.inl ⟨e, h, rfl⟩))
  | inputFault d ev u e h hin => exact .inr (.inr (.inr ⟨d, ev, u, e, h, hin, rfl⟩))
  | halted h => exact .inr (.inl ⟨h, rfl⟩)
  | took _ _ _ _ hin => exact .inl (State.takeInput_status hin :)
  | hold | wrote | popped | pushed | skipped | jumped | stored | called | returned | emitted => exact .inl rfl

/-- An instruction that leaves a Running core as it was held in `in`, or jumped: every other one ends the run, moves the pc to `next`, or
changes the stack. -/
theorem Effect.hold_or_jump_of_eq (h : Effect i s t) (hrun : s.status = .running) (ht : t = s) :
    ((∃ d, i = .in_ (.reg d)) ∧ s.takeInput = none) ∨ ∃ a b, i = .jmp a ∨ i = .jt a b ∨ i = .jf a b := by
  have hpc := congrArg State.pc ht
  have hstack := congrArg State.stack ht
  have hstatus := (congrArg State.status ht).trans hrun
  cases h with
  | hold d h hin => exact .inl ⟨⟨d, h⟩, hin⟩
  | jumped v h => exact .inr h
  | fault | inputFault | halted => cases hstatus
  | called => exact absurd hstack (List.cons_ne_self _ _)
  | returned v rest _ hs => exact absurd (hs.symm.trans hstack.symm) (List.cons_ne_self _ _)
  | took d c u _ hin =>
    rw [State.advance_pc, State.setReg_pc, State.takeInput_pc hin] at hpc
    exact absurd hpc (seqPc_length_ne s i)
  | wrote | popped | pushed | skipped | stored | emitted => exact absurd hpc (seqPc_length_ne s i)

end

end Sys2Proof.Machine

namespace Sys2Proof.Proofs

open Sys2Proof.Machine Sys2Proof.Claims

/-- Settles O8: the fetch answers the instruction placed at the pc. -/
theorem stepRunsDecodedInstruction : Obligations.StepRunsDecodedInstruction := fun _ _ hrun hwf hplaced =>
  step_of_fetch_eq_ok hrun (State.fetch_of_placed hwf hplaced)

/-- Settles O9: the table word's words begin with those of the instruction it decodes to, and they stand at the pc. -/
theorem placedInstructionRunsNext : Obligations.PlacedInstructionRunsNext := by
  intro s nbits w i hpc hdec
  obtain ⟨rest, hdec⟩ := decodeTableWord_eq_some hdec
  obtain ⟨hwf, hws⟩ := decode_eq_ok hdec
  refine stepRunsDecodedInstruction _ i rfl hwf fun k v hk => State.memRead_withFetchWord hpc ?_
  rw [hws, List.getElem?_append_left (List.getElem?_eq_some_iff.1 hk).1, hk]

/-- Settles O10: the first unreadable word of an instruction, word 0 or an operand word of the operation that the opcode word selects,
fails the fetch, as does an opcode word above 21. -/
theorem fetchFaultsInOrder : Obligations.FetchFaultsInOrder := by
  intro s hrun
  refine ⟨fun e hmiss => ?_, fun w hw hinvalid => ?_, fun w k e hw hvalid _ hk hread hmiss => ?_⟩
  · exact step_of_fetch_eq_error hrun (State.fetch_of_missingWord (k := 0) (by simp) hmiss (by simp))
  · exact step_of_fetch_eq_error hrun (State.fetch_of_invalidOpcode hw hinvalid)
  · obtain ⟨op, rfl⟩ := Op.exists_word_eq hvalid
    rw [Op.word_toNat] at hk
    exact step_of_fetch_eq_error hrun (State.fetch_of_missingWord hread hmiss fun _ => ⟨op, hw, hk⟩)

/-- Settles O12: a hold, or the ending of the fetched instruction's effect, or the fault of the fetch. -/
theorem stepOutcomes : Obligations.StepOutcomes := by
  intro s t hrun h
  cases hhold : s.holding with
  | true =>
    rw [step_of_holding hhold] at h
    cases h
    exact .inl ⟨rfl, rfl⟩
  | false =>
    refine .inr ?_
    obtain ⟨-, ⟨i, hf, hx⟩ | ⟨e, -, rfl⟩⟩ := step_next h
    · obtain hstatus | ⟨rfl, rfl⟩ | ⟨e, -, rfl⟩ | ⟨d, ev, u, e, -, hin, rfl⟩ := (exec_effect hx).ending
      · refine .inl ⟨rfl, hstatus.trans hrun, fun hhalt => ?_⟩
        obtain rfl : i = .halt := by simpa [hf] using hhalt
        cases hx
        cases hstatus.trans hrun
      · exact .inr (.inl ⟨hf, rfl⟩)
      · exact .inr (.inr ⟨_, _, rfl, rfl⟩)
      · exact .inr (.inr ⟨e.kind, e.info, by rw [State.raise_status, State.takeInput_pc hin], (State.takeInput_pc hin :)⟩)
    · exact .inr (.inr ⟨_, _, rfl, rfl⟩)

/-- Settles O33: a step that changes nothing is no fault, and of all effects only the hold and a taken jump can leave a Running core
as it was. -/
theorem holdChangesNothing : Obligations.HoldChangesNothing := by
  intro s hrun
  refine ⟨step_of_holding, fun h => ?_⟩
  obtain ⟨-, ⟨i, hf, hx⟩ | ⟨e, -, hs⟩⟩ := step_next h
  · obtain ⟨⟨d, rfl⟩, hin⟩ | ⟨a, b, hi⟩ := (exec_effect hx).hold_or_jump_of_eq hrun rfl
    · exact .inl (State.holding_eq_true.2 ⟨hrun, ⟨d, hf⟩, hin⟩)
    · exact .inr ⟨a, b, by simpa [hf] using hi⟩
  · cases (congrArg State.status hs).symm.trans hrun

end Sys2Proof.Proofs
end

section
/-! SUPPORT. The rules of single instructions (R81 to R85): what each rule says of fetch and operand faults follows from the order in which
the instruction's meaning resolves its operands. Then the meanings of halt, set, push and pop (R100 to R104). -/

namespace Sys2Proof.Machine

open Sys2Proof.Claims

/-! ### The common faults -/

/-- R81, R83: an operation's fetch fails at its first word that cannot be read. -/
theorem fetchFaults (op : Op) : FetchFaults op.word (arity op.number) := by
  intro s k hrun hk hword hread hmiss
  cases hm : s.memRead (s.pc.toNat + k) with
  | ok v => exact absurd hm (hmiss v)
  | error e => exact step_of_fetch_eq_error hrun (State.fetch_of_missingWord hread hm fun hpos => ⟨op, hword hpos, hk⟩)

/-- R66: the model's write-resolution of a word's operand class is the rule's. -/
theorem destIndex_ofWord_eq_writeResolve (w : Word) : destIndex (Dst.ofWord w) = writeResolve w := destIndex_ofWord w

section
variable {i : Instr} {s : State} {A B : Word}

/-- R84 for an instruction that resolves a source first. -/
theorem faultsS_of_exec {k : Word → Except Trap State} (h : exec i s = s.commit (s.value (Src.ofWord A) >>= k)) :
    FaultsS i s A := by
  intro e hA
  rw [State.value_ofWord_eq_readResolve, hA] at h
  exact h

/-- R84 for an instruction that resolves its destination first. -/
theorem faultsD_of_exec {k : RegIndex → Except Trap State} (h : exec i s = s.commit (destIndex (Dst.ofWord A) >>= k)) :
    FaultsD i s A := by
  intro e hA
  rw [destIndex_ofWord_eq_writeResolve, hA] at h
  exact h

/-- R84 for an instruction that resolves its destination first and a source second. -/
theorem faultsDS_of_exec {k : RegIndex → Word → Except Trap State}
    (h : exec i s = s.commit (destIndex (Dst.ofWord A) >>= fun d => s.value (Src.ofWord B) >>= k d)) :
    FaultsDS i s A B := by
  refine ⟨faultsD_of_exec h, fun d e hA hB => ?_⟩
  rw [destIndex_ofWord_eq_writeResolve, hA, ok_bind, State.value_ofWord_eq_readResolve, hB] at h
  exact h

end

/-! ### Instructions of format L3 that write a register -/

theorem State.writeUnary_of_ok {s : State} {a : Dst} {b : Src} {f : Word → Except Trap Word} {d : RegIndex} {vb v : Word}
    (ha : destIndex a = .ok d) (hb : s.value b = .ok vb) (hf : f vb = .ok v) :
    s.writeUnary a b f = .next ((s.setReg d v).advance 3) := by
  simp [State.writeUnary, ha, hb, hf]

/-- An operation with a destination and one source, whose meaning writes `f` of the source and has no fault of its own, meets the rule
of its format. -/
theorem unaryRule_of_writeUnary {op : Op} {mk : Dst → Src → Instr} {f : Word → Word} (harity : arity op.number = 2)
    (hops : op.operands = operands2 fun a b => mk (Dst.ofWord a) (Src.ofWord b))
    (hexec : ∀ a b s, exec (mk a b) s = s.writeUnary a b fun v => .ok (f v)) : UnaryRule mk op.word f := by
  refine ⟨harity ▸ fetchFaults op, fun s A B => ⟨?_, fun d vb hA hB => ?_, faultsDS_of_exec (hexec ..)⟩⟩
  · rw [decode_word, hops]
    rfl
  · rw [← destIndex_ofWord_eq_writeResolve] at hA
    rw [← State.value_ofWord_eq_readResolve] at hB
    exact (hexec ..).trans (State.writeUnary_of_ok hA hB rfl)

/-! ### The stack -/

section
variable {s : State}

/-- A push finds room where the capacity, if there is one, is not reached (R26). -/
theorem State.stackFull_eq_false : s.stackFull = false ↔ ∀ k, s.stackCapacity = some k → s.stack.length < k := by
  rw [← Bool.not_eq_true, State.stackFull_eq_true]
  simp

/-- R102: a push that finds room completes. -/
theorem exec_push_of_room {a : Src} {v : Word} (ha : s.value a = .ok v) (hroom : s.stackFull = false) :
    exec (.push a) s = .next (({ s with stack := v :: s.stack } : State).advance 2) := by
  simp [exec, execPush, ha, State.pushWord_eq_ok.2 ⟨hroom, rfl⟩]

/-- R102: a push that finds the stack full overflows, with the value it was to push. -/
theorem exec_push_of_full {a : Src} {v : Word} (ha : s.value a = .ok v) (hfull : s.stackFull = true) :
    exec (.push a) s = .next (s.raise ⟨.stackOverflow, v.toNat⟩) := by
  simp [exec, execPush, ha, State.pushWord_eq_error.2 ⟨hfull, rfl⟩]

/-- R103: a pop takes the top off into its destination. -/
theorem exec_pop_of_cons {a : Dst} {d : RegIndex} {v : Word} {rest : List Word} (ha : destIndex a = .ok d)
    (hs : s.stack = v :: rest) :
    exec (.pop a) s = .next ((({ s with stack := rest } : State).setReg d v).advance 2) := by
  simp [exec, execPop, ha, State.popWord_eq_ok.2 ⟨rest, hs, rfl⟩]

/-- R103: a pop with an empty stack underflows, once its destination is resolved. -/
theorem exec_pop_of_nil {a : Dst} {d : RegIndex} (ha : destIndex a = .ok d) (hs : s.stack = []) :
    exec (.pop a) s = .next (s.raise ⟨.stackUnderflow, 3⟩) := by
  simp [exec, execPop, ha, State.popWord_eq_error.2 ⟨hs, rfl⟩, Op.number]

end

end Sys2Proof.Machine

namespace Sys2Proof.Proofs

open Sys2Proof.Machine Sys2Proof.Claims

/-- Settles O35: the push leaves the value on top of the old stack, and the pop takes it off. -/
theorem pushThenPopRestores : Obligations.PushThenPopRestores := by
  intro s u a d v ha hroom
  refine ⟨_, exec_push_of_room ha hroom, rfl, fun hu => ?_⟩
  exact ⟨_, exec_pop_of_cons (destIndex_reg d) hu, by simp, rfl, rfl⟩

/-- Settles O27: none of the five has a destination or writes the stack, the Word Store or the channel. -/
theorem controlInstructionsFrame : Obligations.ControlInstructionsFrame := by
  intro a b i s t hi h
  have he := exec_effect h
  have hd : i.destination = none := by
    simp only [List.mem_cons, List.not_mem_nil, or_false] at hi
    rcases hi with rfl | rfl | rfl | rfl | rfl <;> rfl
  refine ⟨fun r => (he.reg r).resolve_right (by simp [hd]), he.sameStack ?_ ?_ ?_ ?_, he.sameMemory ?_,
    he.sameChannel ?_ ?_, he.statusKeptOrFaulted, ?_⟩
  case refine_8 =>
    rintro rfl
    cases h
    rfl
  -- what is left says that none of the storages' writers is among the instructions listed
  all_goals
    intros
    exact ne_of_mem_of_not_mem hi (by simp)

/-- Settles O38: `halt` leaves the status Halted, in which no step is enabled. -/
theorem haltRule : Obligations.HaltRule := by
  refine ⟨decode_word .halt [], fetchFaults .halt, fun s => ⟨_, rfl, rfl, fun u hu => ?_⟩⟩
  rw [step_of_halted rfl] at hu
  cases hu

/-- Settles O39: `set` has the shape of its format, with the value itself as the result. -/
theorem setRule : Obligations.SetRule := unaryRule_of_writeUnary (op := .set) rfl rfl fun _ _ _ => rfl

/-- Settles O40: a push finds room exactly where the stack is unbounded or below its bound. -/
theorem pushRule : Obligations.PushRule := by
  refine ⟨fetchFaults .push, fun s A => ⟨decode_word .push [A], fun v hA => ?_, faultsS_of_exec rfl⟩⟩
  rw [← State.value_ofWord_eq_readResolve] at hA
  refine ⟨fun hcap => ?_, fun k hcap hlt => ?_, fun k hcap hle => ?_⟩
  · exact exec_push_of_room hA (State.stackFull_eq_false.2 (by simp [hcap]))
  · exact exec_push_of_room hA (State.stackFull_eq_false.2 (by simpa [hcap] using hlt))
  · exact exec_push_of_full hA (State.stackFull_eq_true.2 ⟨k, hcap, hle⟩)

/-- Settles O41: the destination is resolved first, then the stack decides between the pop and the underflow. -/
theorem popRule : Obligations.PopRule := by
  refine ⟨fetchFaults .pop, fun s A => ⟨decode_word .pop [A], fun d v rest hA hs => ?_, fun d hA hs => ?_, faultsD_of_exec rfl⟩⟩
  all_goals rw [← destIndex_ofWord_eq_writeResolve] at hA
  · exact exec_pop_of_cons hA hs
  · exact exec_pop_of_nil hA hs

end Sys2Proof.Proofs
end

section
/-! SUPPORT. The rules of eq, gt and the jumps (R120 to R125): the operand faults of formats with two sources, the register writers of
format L4, and a jump to an allocated or an unallocated target. -/

namespace Sys2Proof.Machine

open Sys2Proof.Claims

/-! ### The faults of two sources -/

section
variable {i : Instr} {s : State} {A B C : Word}

/-- R84 for an instruction that resolves two sources first. -/
theorem faultsSS_of_exec {k : Word → Word → Except Trap State}
    (h : exec i s = s.commit (s.value (Src.ofWord A) >>= fun v => s.value (Src.ofWord B) >>= k v)) : FaultsSS i s A B := by
  refine ⟨faultsS_of_exec h, fun v e hA hB => ?_⟩
  rw [State.value_ofWord_eq_readResolve, hA, ok_bind, State.value_ofWord_eq_readResolve, hB] at h
  exact h

/-- R84 for an instruction that resolves its destination first and then two sources. -/
theorem faultsDSS_of_exec {k : RegIndex → Word → Word → Except Trap State}
    (h : exec i s = s.commit (destIndex (Dst.ofWord A) >>= fun d =>
      s.value (Src.ofWord B) >>= fun v => s.value (Src.ofWord C) >>= k d v)) : FaultsDSS i s A B C := by
  refine ⟨faultsDS_of_exec h, fun d v e hA hB hC => ?_⟩
  rw [destIndex_ofWord_eq_writeResolve, hA, ok_bind, State.value_ofWord_eq_readResolve, hB, ok_bind,
    State.value_ofWord_eq_readResolve, hC] at h
  exact h

end

/-! ### Instructions of format L4 that write a register -/

theorem State.writeBinary_of_ok {s : State} {a : Dst} {b c : Src} {f : Word → Word → Except Trap Word} {d : RegIndex}
    {vb vc v : Word} (ha : destIndex a = .ok d) (hb : s.value b = .ok vb) (hc : s.value c = .ok vc) (hf : f vb vc = .ok v) :
    s.writeBinary a b c f = .next ((s.setReg d v).advance 4) := by
  simp [State.writeBinary, ha, hb, hc, hf]

/-- An operation with a destination and two sources, whose meaning writes `f` of the sources and has no fault of its own, meets the
rule of its format. -/
theorem binaryRule_of_writeBinary {op : Op} {mk : Dst → Src → Src → Instr} {f : Word → Word → Word}
    (harity : arity op.number = 3)
    (hops : op.operands = operands3 fun a b c => mk (Dst.ofWord a) (Src.ofWord b) (Src.ofWord c))
    (hexec : ∀ a b c s, exec (mk a b c) s = s.writeBinary a b c fun x y => .ok (f x y)) : BinaryRule mk op.word f := by
  refine ⟨harity ▸ fetchFaults op, fun s A B C => ⟨?_, fun d vb vc hA hB hC => ?_, faultsDSS_of_exec (hexec ..)⟩⟩
  · rw [decode_word, hops]
    rfl
  · rw [← destIndex_ofWord_eq_writeResolve] at hA
    rw [← State.value_ofWord_eq_readResolve] at hB hC
    exact (hexec ..).trans (State.writeBinary_of_ok hA hB hC rfl)

/-- R120: what `eq` writes, without the model's truth value. -/
theorem truthWord_equalTest (x y : Word) : truthWord (equalTest x y) = if x = y then 1 else 0 := by
  simp [truthWord, equalTest]

/-- R121: what `gt` writes, without the model's truth value. -/
theorem truthWord_greaterTest (x y : Word) : truthWord (greaterTest x y) = if x.toNat > y.toNat then 1 else 0 := by
  simp [truthWord, greaterTest]

/-! ### Jumps -/

/-- R123: the test of `jt`, on the word's number. -/
theorem isNonzero_iff {v : Word} : isNonzero v = true ↔ v.toNat ≠ 0 := by
  simp [isNonzero, ← BitVec.toNat_inj]

section
variable {s : State} {t : Word}

/-- R125: a jump that ends its instruction goes to an allocated target. -/
theorem State.commit_jumpTo_of_targetOk (h : TargetOk s t) : s.commit (s.jumpTo t) = .next { s with pc := t } := by
  rw [State.jumpTo_eq_ok.2 ⟨h, rfl⟩, State.commit_ok]

/-- R125: a jump to an unallocated target raises AddressingError with it. -/
theorem State.commit_jumpTo_of_not_targetOk (h : ¬ TargetOk s t) :
    s.commit (s.jumpTo t) = .next (faultState s .addressingError t.toNat) := by
  rw [State.jumpTo_eq_error.2 ⟨h, rfl⟩, State.commit_error]
  rfl

theorem execJmp_of_ok {a : Src} (ha : s.value a = .ok t) : execJmp a s = s.commit (s.jumpTo t) := by
  rw [execJmp, ha, ok_bind]

variable {a b : Src} {test : Word → Bool} {vc : Word}

theorem State.branch_of_taken (ha : s.value a = .ok vc) (hb : s.value b = .ok t) (h : test vc = true) :
    s.branch a b test = s.commit (s.jumpTo t) := by
  simp [State.branch, ha, hb, h]

theorem State.branch_of_not_taken (ha : s.value a = .ok vc) (hb : s.value b = .ok t) (h : ¬ test vc = true) :
    s.branch a b test = .next (s.advance 3) := by
  simp [State.branch, ha, hb, h]

end

/-- An operation with a condition and a target, whose meaning branches on the condition values `taken` holds of, meets the rule of a
conditional jump. -/
theorem branchRule_of_branch {op : Op} {mk : Src → Src → Instr} {taken : Word → Prop} {test : Word → Bool}
    (harity : arity op.number = 2) (hops : op.operands = operands2 fun a b => mk (Src.ofWord a) (Src.ofWord b))
    (hexec : ∀ a b s, exec (mk a b) s = s.branch a b test) (htest : ∀ v, test v = true ↔ taken v) :
    BranchRule mk op.word taken := by
  refine ⟨harity ▸ fetchFaults op, fun s A B => ⟨?_, fun vc t hA hB => ?_, faultsSS_of_exec (hexec ..)⟩⟩
  · rw [decode_word, hops]
    rfl
  · rw [← State.value_ofWord_eq_readResolve] at hA hB
    simp only [Raises, hexec, ← htest]
    refine ⟨State.branch_of_not_taken hA hB, fun h hok => ?_, fun h hnot => ?_⟩
    · exact (State.branch_of_taken hA hB h).trans (State.commit_jumpTo_of_targetOk hok)
    · exact (State.branch_of_taken hA hB h).trans (State.commit_jumpTo_of_not_targetOk hnot)

end Sys2Proof.Machine

namespace Sys2Proof.Proofs

open Sys2Proof.Machine Sys2Proof.Claims

/-- Settles O42: `eq` has the shape of its format, and the truth value of its comparison is the rule's result. -/
theorem eqRule : Obligations.EqRule := by
  refine binaryRule_of_writeBinary (op := .eq) rfl rfl fun a b c s => ?_
  simp only [← truthWord_equalTest]
  rfl

/-- Settles O43: `gt` has the shape of its format, and the truth value of its unsigned comparison is the rule's result. -/
theorem gtRule : Obligations.GtRule := by
  refine binaryRule_of_writeBinary (op := .gt) rfl rfl fun a b c s => ?_
  simp only [← truthWord_greaterTest]
  rfl

/-- Settles O44: `jmp` ends with the jump to the value of its operand, which the target check decides. -/
theorem jmpRule : Obligations.JmpRule := by
  refine ⟨fetchFaults .jmp, fun s A => ⟨decode_word .jmp [A], fun t hA => ?_, faultsS_of_exec rfl⟩⟩
  rw [← State.value_ofWord_eq_readResolve] at hA
  refine ⟨fun hok => ?_, fun hnot => ?_⟩
  · exact (execJmp_of_ok hA).trans (State.commit_jumpTo_of_targetOk hok)
  · exact (execJmp_of_ok hA).trans (State.commit_jumpTo_of_not_targetOk hnot)

/-- Settles O45: `jt` branches on a condition that is not 0. -/
theorem jtRule : Obligations.JtRule := branchRule_of_branch (op := .jt) rfl rfl (fun _ _ _ => rfl) fun _ => isNonzero_iff

/-- Settles O46: `jf` branches where `jt` does not. -/
theorem jfRule : Obligations.JfRule :=
  branchRule_of_branch (op := .jf) rfl rfl (fun _ _ _ => rfl) fun v => by
    simpa using (isNonzero_iff (v := v)).not

end Sys2Proof.Proofs
end

section
/-! SUPPORT. The rules of the ALU (R140 to R147): the arithmetic of add, mult and not in numbers, the one fault of mod, and the registers'
range, which every effect keeps. -/

namespace Sys2Proof.Machine

open Sys2Proof.Claims

/-! ### Results in numbers -/

/-- R141: a sum modulo 32768 fits in a word. -/
theorem toNat_sumWord (x y : Word) : (sumWord x y).toNat = (x.toNat + y.toNat) % 32768 := by
  simp only [sumWord, Config.valueMod, BitVec.toNat_ofNat]
  omega

/-- R142: a product modulo 32768 fits in a word. -/
theorem toNat_productWord (x y : Word) : (productWord x y).toNat = (x.toNat * y.toNat) % 32768 := by
  simp only [productWord, Config.valueMod, BitVec.toNat_ofNat]
  omega

/-- R146: the complement fits in a word. -/
theorem toNat_complementWord (x : Word) : (complementWord x).toNat = 32767 - x.toNat := by
  simp only [complementWord, Config.valueMax, BitVec.toNat_ofNat]
  omega

/-- R146: on fifteen bits the subtraction flips every bit, so it is the exclusive or with fifteen ones. -/
theorem complementWord_eq_xor {v : Word} (hv : v.toNat ≤ 32767) : complementWord v = v ^^^ 0x7FFF := by
  have hlow : v.toNat % 32768 = v.toNat := Nat.mod_eq_of_lt (Nat.lt_succ_of_le hv)
  have hflip := congrArg BitVec.toNat (BitVec.xor_allOnes (x := BitVec.ofNat 15 v.toNat))
  apply BitVec.eq_of_toNat_eq
  rw [toNat_complementWord]
  simpa [hlow] using hflip.symm

/-! ### The fault of a result -/

/-- An L4 instruction's own check faults once its three operands are resolved (R84). -/
theorem State.writeBinary_of_error {s : State} {a : Dst} {b c : Src} {f : Word → Word → Except Trap Word} {d : RegIndex}
    {vb vc : Word} {e : Trap} (ha : destIndex a = .ok d) (hb : s.value b = .ok vb) (hc : s.value c = .ok vc)
    (hf : f vb vc = .error e) : s.writeBinary a b c f = .next (s.raise e) := by
  simp [State.writeBinary, ha, hb, hc, hf]

section
variable {s : State} {a : Dst} {b c : Src} {d : RegIndex} {vb vc : Word}

/-- R143: with a divisor that is not 0, `mod` writes the remainder. -/
theorem exec_mod_of_ne_zero (ha : destIndex a = .ok d) (hb : s.value b = .ok vb) (hc : s.value c = .ok vc) (h : vc ≠ 0) :
    exec (.mod a b c) s = .next ((s.setReg d (remainderWord vb vc)).advance 4) :=
  State.writeBinary_of_ok ha hb hc (if_neg h)

/-- R143: with the divisor 0, literal or register, `mod` raises ArithmeticError with the divisor's operand word. -/
theorem exec_mod_of_eq_zero (ha : destIndex a = .ok d) (hb : s.value b = .ok vb) (hc : s.value c = .ok vc) (h : vc = 0) :
    exec (.mod a b c) s = .next (s.raise ⟨.arithmeticError, c.word.toNat⟩) :=
  State.writeBinary_of_error ha hb hc (if_pos h)

end

/-! ### The range of the registers -/

theorem State.Inv.reg_le {s : State} (hs : s.Inv) (r : RegIndex) : (s.reg r).toNat ≤ 32767 := by
  obtain ⟨hreg, -⟩ := hs
  exact hreg r

/-- R21: every effect of a well-formed instruction leaves every register in range, wherever the instruction stands. -/
theorem Effect.reg_le {i : Instr} {s t : State} (h : Effect i s t) (hwf : i.wellFormed = true) (hs : s.Inv) (r : RegIndex) :
    (t.reg r).toNat ≤ 32767 := by
  cases h with
  | wrote d v _ _ _ hv => exact (hs.setReg d (hv hwf hs.reg_le)).reg_le r
  | popped d v rest _ hst =>
    obtain ⟨hv, hpop⟩ := hs.pop hst
    exact (hpop.setReg d hv).reg_le r
  | took d c u _ hin hc =>
    have hcode : (BitVec.ofNat 16 c).toNat ≤ 32767 := (Nat.mod_le ..).trans hc
    exact ((hs.takeInput hin).setReg d hcode).reg_le r
  | inputFault _ _ _ _ _ hin => exact (hs.takeInput hin).reg_le r
  | fault | hold | halted | pushed | skipped | jumped | stored | called | returned | emitted => exact hs.reg_le r

end Sys2Proof.Machine

namespace Sys2Proof.Proofs

open Sys2Proof.Machine Sys2Proof.Claims

/-- Settles O53: each of the three results is written to the destination register, and every effect of a well-formed instruction keeps
the registers in range. -/
theorem aluClosure : Obligations.AluClosure := by
  intro s a d B C vb vc hs hB hC
  rw [← State.value_ofWord_eq_readResolve] at hB hC
  refine ⟨⟨_, State.writeBinary_of_ok (destIndex_reg d) hB hC rfl, ?_⟩,
    ⟨_, State.writeBinary_of_ok (destIndex_reg d) hB hC rfl, ?_⟩,
    ⟨_, State.writeUnary_of_ok (destIndex_reg d) hB rfl, ?_⟩, fun i b c t _ h hwf r => (exec_effect h).reg_le hwf hs r⟩
  · simp [toNat_sumWord]
  · simp [toNat_productWord]
  · simp [toNat_complementWord]

/-- Settles O47: `add` has the shape of its format, with the sum modulo 32768 as the result. -/
theorem addRule : Obligations.AddRule := binaryRule_of_writeBinary (op := .add) rfl rfl fun _ _ _ _ => rfl

/-- Settles O48: `mult` has the shape of its format, with the product of the naturals modulo 32768 as the result. -/
theorem multRule : Obligations.MultRule := binaryRule_of_writeBinary (op := .mult) rfl rfl fun _ _ _ _ => rfl

/-- Settles O49: once the operands are resolved, the value of the divisor decides between the remainder and the fault. -/
theorem modRule : Obligations.ModRule := by
  refine ⟨fetchFaults .mod, fun s A B C =>
    ⟨decode_word .mod [A, B, C], fun d vb vc hA hB hC => ?_, faultsDSS_of_exec rfl⟩⟩
  rw [← destIndex_ofWord_eq_writeResolve] at hA
  rw [← State.value_ofWord_eq_readResolve] at hB hC
  refine ⟨fun hne => ?_, fun hzero => ?_⟩
  · exact exec_mod_of_ne_zero hA hB hC fun h => hne (congrArg BitVec.toNat h)
  · have hfault := exec_mod_of_eq_zero hA hB hC (BitVec.eq_of_toNat_eq hzero)
    rwa [Src.word_ofWord] at hfault

/-- Settles O50: `and` has the shape of its format. -/
theorem andRule : Obligations.AndRule := binaryRule_of_writeBinary (op := .and) rfl rfl fun _ _ _ _ => rfl

/-- Settles O51: `or` has the shape of its format. -/
theorem orRule : Obligations.OrRule := binaryRule_of_writeBinary (op := .or) rfl rfl fun _ _ _ _ => rfl

/-- Settles O52: `not` has the shape of its format, with the complement as the result; on fifteen bits that is the exclusive or. -/
theorem notRule : Obligations.NotRule :=
  ⟨unaryRule_of_writeUnary (op := .not) rfl rfl fun _ _ _ => rfl, fun v hv => ⟨complementWord_eq_xor hv, complementWord_le v⟩⟩

end Sys2Proof.Proofs
end

section
/-! SUPPORT. The rules of rmem, wmem, call and ret (R160 to R164): what each answers once its operands are resolved, by the cell it reads
or writes, the target check and the stack. -/

namespace Sys2Proof.Machine

open Sys2Proof.Claims

/-! ### rmem and wmem -/

/-- An L3 instruction's own check faults once its two operands are resolved (R84). -/
theorem State.writeUnary_of_error {s : State} {a : Dst} {b : Src} {f : Word → Except Trap Word} {d : RegIndex} {vb : Word}
    {e : Trap} (ha : destIndex a = .ok d) (hb : s.value b = .ok vb) (hf : f vb = .error e) :
    s.writeUnary a b f = .next (s.raise e) := by
  simp [State.writeUnary, ha, hb, hf]

section
variable {s : State} {a : Dst} {b : Src} {d : RegIndex} {x w : Word}

/-- R160: a word in range is moved whole. -/
theorem exec_rmem_of_le (ha : destIndex a = .ok d) (hb : s.value b = .ok x) (hm : s.memRead x.toNat = .ok w)
    (hw : w.toNat ≤ 32767) : exec (.rmem a b) s = .next ((s.setReg d w).advance 3) :=
  State.writeUnary_of_ok ha hb <| by rw [hm, ok_bind, if_neg (Nat.not_lt.2 hw)]

/-- R160: a word above 32767 raises ValueOutOfRange with it. -/
theorem exec_rmem_of_gt (ha : destIndex a = .ok d) (hb : s.value b = .ok x) (hm : s.memRead x.toNat = .ok w)
    (hw : 32767 < w.toNat) : exec (.rmem a b) s = .next (s.raise ⟨.valueOutOfRange, w.toNat⟩) :=
  State.writeUnary_of_error ha hb <| by rw [hm, ok_bind, if_pos hw]

/-- R160: a cell that cannot be read raises the fault of the read. -/
theorem exec_rmem_of_memRead_error {e : Trap} (ha : destIndex a = .ok d) (hb : s.value b = .ok x)
    (hm : s.memRead x.toNat = .error e) : exec (.rmem a b) s = .next (s.raise e) :=
  State.writeUnary_of_error ha hb <| by rw [hm, error_bind]

end

section
variable {s : State} {a b : Src} {x v : Word}

/-- R43: an address from 32768 up raises AddressingError, once both operands are resolved. -/
theorem exec_wmem_of_ge (ha : s.value a = .ok x) (hb : s.value b = .ok v) (hx : 32768 ≤ x.toNat) :
    exec (.wmem a b) s = .next (s.raise ⟨.addressingError, x.toNat⟩) := by
  simp [exec, execWmem, ha, hb, State.memWrite_eq_error.2 ⟨hx, rfl⟩]

/-- A `wmem` leaves the Word Store as it is, or writes one cell, at the value of its first operand (R44, R161). -/
theorem exec_wmem_mem {t : State} (h : exec (.wmem a b) s = .next t) :
    t.mem = s.mem ∨ ∃ x v, s.value a = .ok x ∧ t.mem = s.mem.write x.toNat v := by
  obtain hmem | ⟨_, _, x, v, hi, ha, -, hmem⟩ := (exec_effect h).mem
  · exact .inl hmem
  · cases hi
    exact .inr ⟨x, v, ha, hmem⟩

end

/-! ### call and ret -/

section
variable {s : State} {a : Src} {v : Word}

/-- R162: a return address that is no cell's raises AddressingError, before the target is checked. -/
theorem exec_call_of_ge (ha : s.value a = .ok v) (hret : 32768 ≤ s.pc.toNat + 2) :
    exec (.call a) s = .next (s.raise ⟨.addressingError, s.pc.toNat + 2⟩) := by
  rw [exec, execCall, ha, ok_bind, if_pos hret, State.commit_error]

/-- R162: after the check of the return address a call is the jump, then the push. -/
theorem exec_call_of_lt (ha : s.value a = .ok v) (hret : s.pc.toNat + 2 < 32768) :
    exec (.call a) s = s.commit (s.jumpTo v >>= fun u => u.pushWord (seqPc s 2)) := by
  rw [exec, execCall, ha, ok_bind, if_neg (Nat.not_le.2 hret)]
  rfl

/-- R162: an unallocated target raises AddressingError, before the stack is looked at. -/
theorem exec_call_of_not_targetOk (ha : s.value a = .ok v) (hret : s.pc.toNat + 2 < 32768) (hv : ¬ TargetOk s v) :
    exec (.call a) s = .next (s.raise ⟨.addressingError, v.toNat⟩) := by
  rw [exec_call_of_lt ha hret, State.jumpTo_eq_error.2 ⟨hv, rfl⟩, error_bind, State.commit_error]

/-- R162: a call that finds the stack full overflows, with the return address it was to push. -/
theorem exec_call_of_full (ha : s.value a = .ok v) (hret : s.pc.toNat + 2 < 32768) (hv : TargetOk s v)
    (hfull : s.stackFull = true) : exec (.call a) s = .next (s.raise ⟨.stackOverflow, s.pc.toNat + 2⟩) := by
  have hseq : (seqPc s 2).toNat = s.pc.toNat + 2 := by
    rw [seqPc, BitVec.toNat_ofNat, Nat.mod_eq_of_lt (by omega)]
  rw [exec_call_of_lt ha hret, State.jumpTo_eq_ok.2 ⟨hv, rfl⟩, ok_bind,
    (State.pushWord_eq_error (s := { s with pc := v })).2 ⟨hfull, rfl⟩, hseq, State.commit_error]

/-- R162: a call that finds room pushes the return address and goes to its target. -/
theorem exec_call_of_room (ha : s.value a = .ok v) (hret : s.pc.toNat + 2 < 32768) (hv : TargetOk s v)
    (hroom : s.stackFull = false) : exec (.call a) s = .next { s with stack := seqPc s 2 :: s.stack, pc := v } := by
  rw [exec_call_of_lt ha hret, State.jumpTo_eq_ok.2 ⟨hv, rfl⟩, ok_bind,
    (State.pushWord_eq_ok (s := { s with pc := v })).2 ⟨hroom, rfl⟩, State.commit_ok]

end

section
variable {s : State} {v : Word} {rest : List Word}

/-- R163: a return with an empty stack underflows. -/
theorem exec_ret_of_nil (hs : s.stack = []) : exec .ret s = .next (s.raise ⟨.stackUnderflow, 18⟩) := by
  rw [exec, execRet, State.popWord_eq_error.2 ⟨hs, rfl⟩, error_bind, State.commit_error]
  rfl

/-- R163: a return is the jump to the top of the stack, with the top taken off. -/
theorem exec_ret_of_cons (hs : s.stack = v :: rest) :
    exec .ret s = s.commit (({ s with stack := rest } : State).jumpTo v) := by
  rw [exec, execRet, State.popWord_eq_ok.2 ⟨rest, hs, rfl⟩, ok_bind]

/-- R163: a return to an allocated cell takes the top off and goes there. -/
theorem exec_ret_of_targetOk (hs : s.stack = v :: rest) (hv : TargetOk s v) :
    exec .ret s = .next { s with stack := rest, pc := v } := by
  rw [exec_ret_of_cons hs, (State.jumpTo_eq_ok (s := { s with stack := rest })).2 ⟨hv, rfl⟩, State.commit_ok]

/-- R163, R204: a return to an unallocated cell raises AddressingError, and the pop is discarded. -/
theorem exec_ret_of_not_targetOk (hs : s.stack = v :: rest) (hv : ¬ TargetOk s v) :
    exec .ret s = .next (s.raise ⟨.addressingError, v.toNat⟩) := by
  rw [exec_ret_of_cons hs, (State.jumpTo_eq_error (s := { s with stack := rest })).2 ⟨hv, rfl⟩, State.commit_error]

end

end Sys2Proof.Machine

namespace Sys2Proof.Proofs

open Sys2Proof.Machine Sys2Proof.Claims

/-- Settles O25: a `wmem` that changes the Word Store wrote the cell at its address alone, and it has no destination and is no writer of
the stack or the channel. -/
theorem wmemFrame : Obligations.WmemFrame := by
  intro a b s t h
  have he := exec_effect h
  refine ⟨fun v ha addr hne => ?_, fun e ha addr => ?_, fun r => (he.reg r).resolve_right (by simp [Instr.destination]),
    he.sameStack (by simp) (by simp) (by simp) (by simp), he.sameChannel (by simp) (by simp),
    he.statusKeptOrFaulted (by simp)⟩
  all_goals obtain hmem | ⟨x, w, hx, hmem⟩ := exec_wmem_mem h
  · rw [hmem]
  · obtain rfl : x = v := Except.ok.inj (hx.symm.trans ha)
    rw [hmem, Memory.read_write, if_neg hne]
  · rw [hmem]
  · cases hx.symm.trans ha

/-- Settles O36: the call leaves the return address on top of the old stack, and the return takes it off and goes there. -/
theorem callThenReturnResumes : Obligations.CallThenReturnResumes := by
  intro s u a v ha hv hroom hret
  refine ⟨_, exec_call_of_room ha hret hv hroom, rfl, fun hu hback => ?_⟩
  exact ⟨_, exec_ret_of_targetOk hu hback, rfl, rfl, rfl⟩

/-- Settles O54: once the operands are resolved, the read of the cell decides, and then the range of its word. -/
theorem rmemRule : Obligations.RmemRule := by
  refine ⟨fetchFaults .rmem, fun s A B => ⟨decode_word .rmem [A, B], fun d t hA hB => ?_, faultsDS_of_exec rfl⟩⟩
  rw [← destIndex_ofWord_eq_writeResolve] at hA
  rw [← State.value_ofWord_eq_readResolve] at hB
  refine ⟨fun w ht hm hw => ?_, fun w ht hm hw => ?_, fun hmiss => ?_⟩
  · exact exec_rmem_of_le hA hB (State.memRead_eq_ok.2 ⟨ht, hm⟩) hw
  · exact exec_rmem_of_gt hA hB (State.memRead_eq_ok.2 ⟨ht, hm⟩) hw
  · exact exec_rmem_of_memRead_error hA hB (State.memRead_eq_error.2 ⟨hmiss, rfl⟩)

/-- Settles O55: the address decides between the write and the fault, and under the invariant both operands' values are in range. -/
theorem wmemRule : Obligations.WmemRule := by
  refine ⟨fetchFaults .wmem, fun s A B => ⟨decode_word .wmem [A, B], fun t v hA hB => ?_, faultsSS_of_exec rfl⟩⟩
  rw [← State.value_ofWord_eq_readResolve] at hA hB
  refine ⟨fun ht => ⟨_, exec_wmem_of_values hA hB ht, rfl, ?_, fun a ha => ?_⟩, exec_wmem_of_ge hA hB, fun hinv => ?_⟩
  · exact (Memory.read_write ..).trans (if_pos rfl)
  · exact (Memory.read_write ..).trans (if_neg ha)
  · have ht : t.toNat ≤ 32767 := State.value_le hinv.reg_le (Src.wf_ofWord A) hA
    exact ⟨Nat.lt_succ_of_le ht, State.value_le hinv.reg_le (Src.wf_ofWord B) hB⟩

/-- Settles O56: the return address, the target and the stack are checked in this order, and a call finds room exactly where the stack is
unbounded or below its bound. -/
theorem callRule : Obligations.CallRule := by
  refine ⟨fetchFaults .call, fun s A => ⟨decode_word .call [A], fun t hA => ?_, faultsS_of_exec rfl⟩⟩
  rw [← State.value_ofWord_eq_readResolve] at hA
  refine ⟨exec_call_of_ge hA, exec_call_of_not_targetOk hA, fun hret ht => ⟨fun hcap => ?_, fun k hcap hlt => ?_,
    fun k hcap hle => ?_⟩⟩
  · exact exec_call_of_room hA hret ht (State.stackFull_eq_false.2 (by simp [hcap]))
  · exact exec_call_of_room hA hret ht (State.stackFull_eq_false.2 (by simpa [hcap] using hlt))
  · exact exec_call_of_full hA hret ht (State.stackFull_eq_true.2 ⟨k, hcap, hle⟩)

/-- Settles O57: the stack decides between the underflow and the jump, and the target check decides whether the jump is made. -/
theorem retRule : Obligations.RetRule :=
  ⟨decode_word .ret [], fetchFaults .ret, fun _ => ⟨exec_ret_of_nil, fun _ _ => exec_ret_of_targetOk,
    fun _ _ => exec_ret_of_not_targetOk⟩⟩

end Sys2Proof.Proofs
end

section
/-! SUPPORT. The I/O channel and the rules of out, in and noop (R180 to R183, R211): which event comes next by the line buffer and the
delivered items, what `in` answers by that event, and what a delivery makes of a holding core. -/

namespace Sys2Proof.Machine

open Sys2Proof.Claims

/-! ### Taking an input event -/

section
variable {s : State}

/-- R183: the current line's next code comes first, whatever has been delivered. -/
theorem State.takeInput_of_cons {c : Nat} {codes : List Nat} (hbuf : s.lineBuffer = c :: codes) :
    s.takeInput = some (.char c, { s with lineBuffer := codes }) := by
  rw [State.takeInput, hbuf]

/-- R183: when the current line is used up, the delivered items decide. -/
theorem State.takeInput_of_nil (hbuf : s.lineBuffer = []) :
    s.takeInput = (nextItem s.pendingInput).map fun (e, codes, rest) =>
      (e, { s with lineBuffer := codes, pendingInput := rest }) := by
  rw [State.takeInput, hbuf]
  cases nextItem s.pendingInput <;> rfl

end

/-! ### out and in -/

/-- R180: an `out` whose operand resolves emits its value. -/
theorem exec_out_of_ok {s : State} {a : Src} {c : Word} (ha : s.value a = .ok c) :
    exec (.out a) s = .next ((s.emit c).advance 2) := by
  simp [exec, execOut, ha]

section
variable {s u : State} {a : Dst} {d : RegIndex} {c : Nat}

/-- R181: the destination is resolved before any input is taken. -/
theorem exec_in_of_destIndex_error {e : Trap} (ha : destIndex a = .error e) : exec (.in_ a) s = .next (s.raise e) := by
  rw [exec, execIn, ha]

/-- R181: a code up to 32767 goes into the destination register. -/
theorem exec_in_of_char_le (ha : destIndex a = .ok d) (hin : s.takeInput = some (.char c, u)) (hc : c ≤ 32767) :
    exec (.in_ a) s = .next { u with regs := s.regs.set d (BitVec.ofNat 16 c), pc := seqPc s 2 } := by
  simp only [exec, execIn, ha, hin, if_neg (Nat.not_lt.2 hc), ← State.takeInput_regs hin, seqPc, ← State.takeInput_pc hin]
  rfl

/-- R181, R204: a code above 32767 raises ValueOutOfRange with it, and stays taken. -/
theorem exec_in_of_char_gt (ha : destIndex a = .ok d) (hin : s.takeInput = some (.char c, u)) (hc : 32767 < c) :
    exec (.in_ a) s = .next (u.raise ⟨.valueOutOfRange, c⟩) := by
  simp only [exec, execIn, ha, hin, if_pos hc]

/-- R181, R204: the end of input raises InputEndOfFile, and stays taken. -/
theorem exec_in_of_endOfInput (ha : destIndex a = .ok d) (hin : s.takeInput = some (.endOfInput, u)) :
    exec (.in_ a) s = .next (u.raise ⟨.inputEndOfFile, 0⟩) := by
  simp only [exec, execIn, ha, hin]

/-- R87: with no event `in` holds (assumption log 6). -/
theorem exec_in_of_none (ha : destIndex a = .ok d) (hin : s.takeInput = none) : exec (.in_ a) s = .next s := by
  simp only [exec, execIn, ha, hin]

end

/-! ### A delivery to a holding core -/

section
variable {s : State} {x : InputItem}

@[simp] theorem State.memRead_supply (a : Nat) : (s.supply x).memRead a = s.memRead a := rfl

@[simp] theorem State.readableWords_supply (n a : Nat) : (s.supply x).readableWords a n = s.readableWords a n := by
  induction n generalizing a with
  | zero => rfl
  | succ n ih => simp only [State.readableWords, State.memRead_supply, ih]

/-- Input that the host supplies does not change which instruction comes next. -/
@[simp] theorem State.fetch_supply : (s.supply x).fetch = s.fetch := by
  simp only [State.fetch, State.readableWords_supply, State.supply_pc]

/-- A core that has been supplied an event does not hold (R87). -/
theorem State.holding_supply (hx : x ≠ .line []) : (s.supply x).holding = false := by
  refine Bool.eq_false_iff.2 fun hhold => hx ?_
  obtain ⟨-, -, hin⟩ := State.holding_eq_true.1 hhold
  exact (State.takeInput_eq_none.1 hin).2 x (by simp)

/-- The item supplied to a core that has no event to take is the next one read: the items before it are lines without codes. -/
theorem State.takeInput_supply {e : InputEvent} {codes : List Nat} {rest : List InputItem} (hin : s.takeInput = none)
    (hitem : nextItem [x] = some (e, codes, rest)) :
    (s.supply x).takeInput = some (e, { s with lineBuffer := codes, pendingInput := rest }) := by
  obtain ⟨hbuf, hitems⟩ := State.takeInput_eq_none.1 hin
  rw [State.takeInput_of_nil (s := s.supply x) hbuf, State.supply_pendingInput, nextItem_append hitems, hitem]
  rfl

/-- The step after a delivery executes the `in` at which the core held. -/
theorem step_supply_of_holding {d : RegIndex} (hhold : s.holding = true) (hf : s.fetch = .ok (.in_ (.reg d))) :
    step (s.supply x) = exec (.in_ (.reg d)) (s.supply x) :=
  step_of_fetch_eq_ok (State.holding_eq_true.1 hhold).1 (State.fetch_supply.trans hf)

end

end Sys2Proof.Machine

namespace Sys2Proof.Proofs

open Sys2Proof.Machine Sys2Proof.Claims

/-- Settles O28: `out` is no writer but of the log and has no destination; `in` is no writer but of its destination and the input. -/
theorem channelInstructionsFrame : Obligations.ChannelInstructionsFrame := by
  refine fun a d s t => ⟨fun h => ?_, fun h => ?_⟩
  all_goals have he := exec_effect h
  · obtain ⟨hline, hpending⟩ := he.input.resolve_right (by simp)
    refine ⟨fun r => (he.reg r).resolve_right (by simp [Instr.destination]), he.sameStack ?_ ?_ ?_ ?_, he.sameMemory ?_,
      he.statusKeptOrFaulted ?_, he.output.imp_right ?_, hline, hpending, he.stackCapacity⟩
    case refine_7 =>
      rintro ⟨_, c, hi, ha, hlog⟩
      cases hi
      exact ⟨c, ha, hlog⟩
    all_goals simp
  · refine ⟨fun r hr => (he.reg r).resolve_right (by simpa [Instr.destination] using hr), he.sameStack ?_ ?_ ?_ ?_,
      he.sameMemory ?_, he.statusKeptOrFaulted ?_, he.output.resolve_right ?_, he.stackCapacity⟩
    all_goals simp

/-- Settles O34: the items before a delivered one are lines without codes, so the step after the delivery takes its event. -/
theorem deliveredEventLiftsHold : Obligations.DeliveredEventLiftsHold := by
  refine fun s => ⟨fun x => ?_, fun x u hu => ?_, fun hhold => ?_, fun h k a hs hp ha => ?_⟩
  · simp [State.deliver_eq_some]
  · obtain ⟨⟨-, hx⟩, rfl⟩ := State.deliver_eq_some.1 hu
    exact ⟨State.holding_supply hx, rfl⟩
  · obtain ⟨-, ⟨d, hf⟩, hin⟩ := State.holding_eq_true.1 hhold
    refine ⟨d, hf, fun c codes hc => ?_, ?_⟩
    · exact ⟨_, _, State.deliver_eq_some.2 ⟨⟨hhold, by simp⟩, rfl⟩, (step_supply_of_holding hhold hf).trans
        (exec_in_of_char_le (destIndex_reg d) (State.takeInput_supply hin rfl) hc), rfl⟩
    · exact ⟨_, _, State.deliver_eq_some.2 ⟨⟨hhold, by simp⟩, rfl⟩, (step_supply_of_holding hhold hf).trans
        (exec_in_of_endOfInput (destIndex_reg d) (State.takeInput_supply hin rfl)), rfl⟩
  · exact hs ▸ Session.act_inRun hp ha

/-- Settles O32: the line buffer decides first, then the first delivered item that holds an event. -/
theorem inputTakenInOrder : Obligations.InputTakenInOrder := by
  refine fun s => ⟨fun c codes => State.takeInput_of_cons, fun c codes rest hbuf hitems => ?_, fun rest hbuf hitems => ?_,
    fun rest e u hbuf hitems hu => ?_, State.takeInput_eq_none⟩
  all_goals rw [State.takeInput_of_nil hbuf, hitems]
  · rfl
  · simp [nextItem, hbuf]
  · exact (State.takeInput_of_nil (s := { s with pendingInput := rest }) hbuf).symm.trans hu

/-- Settles O58: once its operand resolves, `out` emits. -/
theorem outRule : Obligations.OutRule := by
  refine ⟨fetchFaults .out, fun s A => ⟨decode_word .out [A], fun c hA => ?_, faultsS_of_exec rfl⟩⟩
  rw [← State.value_ofWord_eq_readResolve] at hA
  exact exec_out_of_ok hA

/-- Settles O59: the destination is resolved first, then the next event, or that there is none, decides. -/
theorem inRule : Obligations.InRule := by
  refine ⟨fetchFaults .in_, fun s A => ⟨decode_word .in_ [A], fun d hA => ?_, fun e hA => ?_⟩⟩
  all_goals rw [← destIndex_ofWord_eq_writeResolve] at hA
  · exact ⟨fun c u => exec_in_of_char_le hA, fun c u => exec_in_of_char_gt hA, fun u => exec_in_of_endOfInput hA,
      exec_in_of_none hA⟩
  · exact exec_in_of_destIndex_error hA

/-- Settles O60: `noop` has no operand and moves the pc alone. -/
theorem noopRule : Obligations.NoopRule := ⟨decode_word .noop [], fetchFaults .noop, fun _ => rfl⟩

end Sys2Proof.Proofs
end

section
/-! SUPPORT. The faults (R201 to R205): which three ways a step can end Faulted, what each leaves of the state, and the cause of each
kind of fault. -/

namespace Sys2Proof

open Sys2Proof.Claims

/-- A list too short for an instruction ends before one of the at most four words an instruction has (R61, R83). -/
theorem decode_missingWord {ws : List Word} {k : Nat} (h : decode ws = .error (.missingWord k)) :
    k = ws.length ∧ ws.length < Config.maxLength := by
  obtain ⟨w, -, -, hk⟩ | hk := decode_eq_error h
  · cases hk
  · refine ⟨DecodeError.missingWord.inj hk, ?_⟩
    cases ws with
    | nil => decide
    | cons w ws =>
      cases hop : Op.ofWord w with
      | none => simp [decode, hop] at h
      | some op =>
        simp only [decode, hop] at h
        have hshort : ws.length < arity op.number := Nat.lt_of_not_le fun hle => by
          obtain ⟨i, rest, hok⟩ := Op.exists_operands_eq_ok hle
          rw [hok] at h
          cases h
        exact Nat.lt_of_le_of_lt hshort (Machine.arity_lt_maxLength op)

/-- R68: only a word above 21 selects no operation. -/
theorem Op.lt_of_ofWord_eq_none {w : Word} (h : Op.ofWord w = none) : 21 < w.toNat := by
  by_contra hw
  obtain ⟨op, hop, -⟩ := Op.ofWord_isSome (Nat.le_of_not_lt hw)
  rw [hop] at h
  cases h

theorem Instr.destination_wf {i : Instr} {a : Dst} (h : i.wellFormed = true) (ha : i.destination = some a) : a.wf = true := by
  simpa [ha] using (Bool.and_eq_true_iff.1 h).1

end Sys2Proof

namespace Sys2Proof.Machine

open Sys2Proof.Claims

/-! ### How a step can end Faulted -/

/-- What makes a fetch fail (R81 to R83, R202): an opcode word above 21, or a word that cannot be read. -/
theorem State.fetch_error_cause {s : State} {e : Trap} (h : s.fetch = .error e) :
    (∃ w, s.memRead s.pc.toNat = .ok w ∧ 21 < w.toNat ∧ e = ⟨.invalidOpcode, w.toNat⟩) ∨
    ∃ a, (32768 ≤ a ∨ s.mem.read a = none) ∧ e = ⟨.addressingError, a⟩ := by
  unfold State.fetch at h
  split at h
  case h_1 => cases h
  case h_2 w hdec =>
    obtain ⟨v, hhead, hop, hv⟩ | hk := decode_eq_error hdec
    · cases hv
      rw [List.head?_eq_getElem?] at hhead
      exact .inl ⟨w, (State.readableWords_getElem hhead).1, Op.lt_of_ofWord_eq_none hop, (Except.error.inj h).symm⟩
    · cases hk
  case h_3 k hdec =>
    obtain ⟨rfl, hlt⟩ := decode_missingWord hdec
    obtain ⟨hmiss, -⟩ := State.memRead_eq_error.1 (State.memRead_after_readableWords hlt)
    exact .inr ⟨_, hmiss, (Except.error.inj h).symm⟩

/-- What an input event makes `in` raise (R181). -/
def InputFault (ev : InputEvent) (e : Trap) : Prop :=
  (∃ c, ev = .char c ∧ 32767 < c ∧ e = ⟨.valueOutOfRange, c⟩) ∨ ev = .endOfInput ∧ e = ⟨.inputEndOfFile, 0⟩

/-- The faults of a step from `s`: `StepFault s u e` when `e` is raised in `u`, which is `s`, or `s` without the event `in` took. -/
inductive StepFault (s : State) : State → Trap → Prop
  /-- the fetch fails -/
  | fetch (e : Trap) (hf : s.fetch = .error e) : StepFault s s e
  /-- the fetched instruction faults in the state it began in -/
  | exec (i : Instr) (e : Trap) (hf : s.fetch = .ok i) (h : FaultCause i s e) : StepFault s s e
  /-- `in` faults on the event it took -/
  | input (d : RegIndex) (ev : InputEvent) (u : State) (e : Trap) (hf : s.fetch = .ok (.in_ (.reg d)))
      (hin : s.takeInput = some (ev, u)) (h : InputFault ev e) : StepFault s u e

/-- An execution that leaves a Running core Faulted raised one of the faults of a step. -/
theorem Effect.stepFault {i : Instr} {s t : State} {r : FaultRecord} (h : Effect i s t) (hf : s.fetch = .ok i)
    (hrun : s.status = .running) (ht : t.status = .faulted r) : ∃ u e, StepFault s u e ∧ t = u.raise e := by
  cases h with
  | fault e h => exact ⟨s, e, .exec i e hf h, rfl⟩
  | inputFault d ev u e h hin he => exact ⟨u, e, .input d ev u e (h ▸ hf) hin he, rfl⟩
  | took _ _ _ _ hin => cases ht.symm.trans ((State.takeInput_status hin :).trans hrun)
  | halted => cases ht
  | hold | wrote | popped | pushed | skipped | jumped | stored | called | returned | emitted => cases ht.symm.trans hrun

/-- A step that ends Faulted raised one of the faults of a step. -/
theorem step_faulted {s t : State} {r : FaultRecord} (h : step s = .next t) (ht : t.status = .faulted r) :
    ∃ u e, StepFault s u e ∧ t = u.raise e := by
  obtain ⟨hrun, ⟨i, hf, hx⟩ | ⟨e, hf, rfl⟩⟩ := step_next h
  · exact (exec_effect hx).stepFault hf hrun ht
  · exact ⟨s, e, .fetch e hf, rfl⟩

/-! ### What a fault leaves -/

section
variable {s u : State} {e : Trap}

/-- R204: the state a fault is raised in is the one the instruction began in but for the channel's input. -/
theorem StepFault.state_eq (h : StepFault s u e) :
    ∃ codes items, u = { s with lineBuffer := codes, pendingInput := items } := by
  cases h with
  | fetch | exec => exact ⟨_, _, rfl⟩
  | input _ _ _ _ _ hin => exact ⟨_, _, State.takeInput_eq_some hin⟩

/-- Only an `in` with a register destination faults with the channel's input changed. -/
theorem StepFault.eq_of_not_in (h : StepFault s u e) (hf : ∀ d, s.fetch ≠ .ok (.in_ (.reg d))) : u = s := by
  cases h with
  | fetch | exec => rfl
  | input d _ _ _ hi => exact absurd hi (hf d)

/-- An `in` with a register destination has no fault but those of its input. -/
theorem not_faultCause_in {d : RegIndex} : ¬ FaultCause (.in_ (.reg d)) s e := by
  intro h
  cases h with
  | source _ h | dest _ h | pop _ h | ret h | divisor _ _ _ h | stored _ _ _ _ h => cases h
  | address _ _ _ h => simp [MissesCell] at h
  | full _ _ h => simp at h

/-- An `in` with a register destination faults only on an event it took. -/
theorem StepFault.takeInput_of_in {d : RegIndex} (h : StepFault s u e) (hf : s.fetch = .ok (.in_ (.reg d))) :
    ∃ ev, s.takeInput = some (ev, u) := by
  cases h with
  | fetch e he => cases he.symm.trans hf
  | exec i e hi hcause =>
    cases hi.symm.trans hf
    exact absurd hcause not_faultCause_in
  | input _ ev _ _ _ hin => exact ⟨ev, hin⟩

end

/-! ### The causes -/

/-- Under the invariant an address operand of `wmem` is a cell's (R43), so the instruction that misses one is not `wmem`. -/
theorem MissesCell.of_inv {i : Instr} {s : State} (h : MissesCell i s) (hwf : i.wellFormed = true) (hs : s.Inv) :
    ∃ d b c, i = .rmem d b ∨ i = .jmp b ∨ i = .jt c b ∨ i = .jf c b ∨ i = .call b ∨ i = .ret := by
  obtain ⟨d, b, c, h⟩ := h
  have hwmem : ¬ (i = .wmem b c ∧ ∃ x, s.value b = .ok x ∧ 32768 ≤ x.toNat) := by
    rintro ⟨rfl, x, hx, hge⟩
    have hle := State.value_le hs.reg_le (Instr.source_wf hwf (by simp [Instr.sources])) hx
    omega
  simp only [hwmem, or_false] at h
  exact ⟨d, b, c, by tauto⟩

/-- The kinds of fault in the order of the table of R201. -/
def FaultKind.all : List FaultKind :=
  [.invalidOpcode, .operandOutOfRange, .invalidRegisterIndex, .stackUnderflow, .arithmeticError, .addressingError, .valueOutOfRange,
   .inputEndOfFile, .stackOverflow]

theorem FaultKind.mem_all (k : FaultKind) : k ∈ FaultKind.all := by cases k <;> decide

end Sys2Proof.Machine

namespace Sys2Proof.Proofs

open Sys2Proof.Machine Sys2Proof.Claims

/-- Settles O13: fault entry changes the status alone, in a state that differs from the instruction's own by the event `in` took. -/
theorem faultsArePrecise : Obligations.FaultsArePrecise := by
  intro s t r _ h ht
  obtain ⟨u, e, hfault, rfl⟩ := step_faulted h ht
  obtain ⟨codes, items, rfl⟩ := hfault.state_eq
  cases ht
  refine ⟨rfl, rfl, rfl, rfl, rfl, rfl, rfl, fun v hv => ?_, fun hf => ?_, fun d hf => ?_⟩
  · rw [step_of_faulted rfl] at hv
    cases hv
  · have hu := hfault.eq_of_not_in hf
    exact ⟨(congrArg State.lineBuffer hu :), (congrArg State.pendingInput hu :)⟩
  · obtain ⟨ev, hin⟩ := hfault.takeInput_of_in hf
    exact ⟨ev, _, hin, rfl⟩

/-- Settles O14: each way a step can fault has a cause that its kind determines. -/
theorem faultKindsHaveTheirCauses : Obligations.FaultKindsHaveTheirCauses := by
  intro s t k a info _ h ht
  obtain ⟨u, e, hfault, rfl⟩ := step_faulted h ht
  cases ht
  cases hfault with
  | fetch e hf =>
    obtain ⟨w, hw, hinvalid, rfl⟩ | ⟨a, ha, rfl⟩ := State.fetch_error_cause hf
    · exact ⟨w, hw, hinvalid, rfl⟩
    · exact ⟨ha, fun i hi => by cases hf.symm.trans hi⟩
  | exec i e hf hcause =>
    obtain ⟨hwf, -⟩ := State.fetch_eq_ok hf
    cases hcause with
    | source w hw => exact ⟨i, w, hf, hw, (Src.wf_outOfRange w).1 (Instr.source_wf hwf hw), rfl⟩
    | dest w hw => exact ⟨i, w, hf, hw, (Dst.wf_notRegister w).1 (Instr.destination_wf hwf hw), rfl⟩
    | pop d hi hs => exact ⟨hs, .inl ⟨d, hi ▸ hf, rfl⟩⟩
    | ret hi hs => exact ⟨hs, .inr ⟨hi ▸ hf, rfl⟩⟩
    | divisor d b c hi hc => exact ⟨d, b, c, hi ▸ hf, hc, rfl⟩
    | address a ha _ hmiss =>
      refine ⟨ha, fun j hj hinv => ?_⟩
      cases hf.symm.trans hj
      exact hmiss.of_inv hwf hinv
    | stored d b x w hi hb hm hw => exact ⟨hw, .inl ⟨d, b, x, w, hi ▸ hf, hb, hm, rfl⟩⟩
    | full b n hi hfull =>
      obtain ⟨k, hcap, hle⟩ := State.stackFull_eq_true.1 hfull
      obtain ⟨v, rfl, hb, rfl⟩ | ⟨rfl, rfl⟩ := hi
      · exact ⟨k, hcap, hle, .inl ⟨b, v, hf, hb, rfl⟩⟩
      · exact ⟨k, hcap, hle, .inr ⟨b, hf, rfl⟩⟩
  | input d ev u e hf hin he =>
    obtain ⟨c, rfl, hc, rfl⟩ | ⟨rfl, rfl⟩ := he
    · exact ⟨hc, .inr ⟨d, u, hf, hin⟩⟩
    · exact ⟨rfl, d, u, hf, hin⟩

/-- Settles O15: the codes of the table are distinct, and every kind is in the table. -/
theorem causeCodes : Obligations.CauseCodes :=
  have hnodup : (FaultKind.all.map FaultKind.code).Nodup := by decide
  ⟨rfl, fun j k => List.inj_on_of_nodup_map hnodup j.mem_all k.mem_all⟩

end Sys2Proof.Proofs
end

section
/-! SUPPORT. The state after reset and after a load (R230, R231, R233): the fields of the loaded state, that it meets the invariant, and
when the host's own load answers one (R211). Reset is the load of the empty image, so its facts are the loaded state's. -/

namespace Sys2Proof.Machine

/-! ### The loaded state -/

theorem RegBank.get_zero (r : RegIndex) : (⟨0, 0, 0, 0, 0, 0, 0, 0⟩ : RegBank).get r = 0 := by
  decide +revert

/-- What a load of an image that fits leaves of a state (R231). -/
def State.loaded (s : State) (image : List Word) : State :=
  { State.reset with mem := Memory.ofImage 0 image, stackCapacity := s.stackCapacity, pendingInput := s.pendingInput }

/-- R230 with n = 0: the construction leaves what a load of the empty image leaves. -/
theorem State.loaded_reset_nil : State.reset.loaded [] = State.reset := rfl

section
variable {s : State} {image : List Word}

theorem State.load_of_le (h : image.length ≤ 32768) : s.load image = some (s.loaded image) := if_pos h

theorem State.load_of_gt (h : 32768 < image.length) : s.load image = none := if_neg (Nat.not_le.2 h)

@[simp] theorem State.loaded_reg (r : RegIndex) : (s.loaded image).reg r = 0 := RegBank.get_zero r

@[simp] theorem State.loaded_pc : (s.loaded image).pc = 0 := rfl
@[simp] theorem State.loaded_stack : (s.loaded image).stack = [] := rfl
@[simp] theorem State.loaded_mem : (s.loaded image).mem = Memory.ofImage 0 image := rfl
@[simp] theorem State.loaded_status : (s.loaded image).status = .running := rfl
@[simp] theorem State.loaded_output : (s.loaded image).output = [] := rfl
@[simp] theorem State.loaded_lineBuffer : (s.loaded image).lineBuffer = [] := rfl

/-- Cell `i` holds the image's word `i`, and no other cell is allocated. -/
theorem State.loaded_read (a : Nat) : (s.loaded image).mem.read a = image[a]? := by
  simp [Memory.read_ofImage]

/-- The loaded state meets the invariant, whatever state the load began in: an empty stack is within every capacity. -/
theorem State.loaded_inv (h : image.length ≤ 32768) : (s.loaded image).Inv :=
  have hcap : (s.loaded image).stackWithinCapacity = true := State.stackWithinCapacity_iff.2 fun k _ => Nat.zero_le k
  ⟨fun r => by simp, rfl, rfl, Nat.zero_le _, Memory.wf_ofImage image h, hcap, State.recordConsistent_of_running rfl⟩

end

/-! ### The host's load -/

section
variable {h : Session} {image : List Word}

theorem Session.load_of_inRun (hp : h.phase = .inRun) : h.load image = none := by
  simp [Session.load, hp]

/-- Outside a run the host's load has the effect of the core's, and `run()` can be called next. -/
theorem Session.load_of_not_inRun (hp : h.phase ≠ .inRun) : h.load image = (h.core.load image).map fun t => ⟨t, .loaded⟩ := by
  unfold Session.load
  split
  · exact absurd ‹_› hp
  all_goals rfl

end

end Sys2Proof.Machine

namespace Sys2Proof.Proofs

open Sys2Proof.Machine

/-- Settles O17: reset is the load of the empty image, which fits. -/
theorem resetMeetsInvariant : Obligations.ResetMeetsInvariant := by
  unfold Obligations.ResetMeetsInvariant
  rw [← State.loaded_reset_nil]
  exact State.loaded_inv (Nat.zero_le _)

/-- Settles O18: the fields of the loaded state, with the empty image. -/
theorem resetValues : Obligations.ResetValues := by
  unfold Obligations.ResetValues
  rw [← State.loaded_reset_nil]
  exact ⟨State.loaded_reg, State.loaded_pc, State.loaded_stack, State.loaded_read, State.loaded_status, State.loaded_output,
    State.loaded_lineBuffer⟩

/-- Settles O19: an image that fits leaves `State.loaded`, and outside a run the host's load answers as the core's does. -/
theorem loadStartsFreshRun : Obligations.LoadStartsFreshRun := by
  intro s image
  refine ⟨fun hfit => ?_, State.load_of_gt, ?_⟩
  · exact ⟨s.loaded image, State.load_of_le hfit, State.loaded_reg, State.loaded_stack, State.loaded_pc, State.loaded_status,
      State.loaded_output, State.loaded_lineBuffer, State.loaded_read, State.loaded_inv hfit⟩
  · rintro h rfl
    refine ⟨Session.load_of_inRun, fun hp hfit => ?_, fun hp hlong => ?_⟩
    · have hcore := State.load_of_le (s := h.core) hfit
      exact ⟨⟨h.core.loaded image, .loaded⟩, by rw [Session.load_of_not_inRun hp, hcore]; rfl, hcore, rfl⟩
    · rw [Session.load_of_not_inRun hp, State.load_of_gt hlong]
      rfl

end Sys2Proof.Proofs
end
